-- ==== Sys2Proof/Word.lean ====
section
/-! DEFINITION. The word types of BIP39X: bytes, 32-bit bus words, byte strings (00_scope.md R9, R10). -/

namespace Sys2Proof

/-- A byte: a value of width 8 (R10). -/
abbrev Byte := BitVec 8

/-- One word of the host bus and of CMD: 32 bits (R61, R80). -/
abbrev Word := BitVec 32

/-- A byte string; the head of the list is the first byte, `B[0]` (R10). -/
abbrev ByteString := List Byte

end Sys2Proof
end

