-- ==== Sys2Proof/Syntax.lean ====
section
/-! DEFINITION. The six commands of BIP39X, one constructor per row of spec/opcode_table.json (30_encoding.md R83). -/

namespace Sys2Proof

/-- A command. An operand is ARG zero-extended to a natural (R82); which naturals fit the field is
`Instr.wellFormed`, which values a command accepts is the command's own rule. -/
inductive Instr where
  /-- LOADBR n: load the bit reader with RBUF[0..n) (R101). -/
  | loadbr (n : Nat)
  /-- RDBITS c: the next c bits of the stream into RESULT (R102). -/
  | rdbits (c : Nat)
  /-- LOOKUP i: copy ROM entry i into WORD (R120). -/
  | lookup (i : Nat)
  /-- GENERATE b: the mnemonic of b bits of entropy (R121). -/
  | generate (b : Nat)
  /-- DERIVE: the seed of MBUF and PASS (R150). -/
  | derive
  /-- ZEROIZE: clear every data register and buffer (R170). -/
  | zeroize
deriving DecidableEq, Repr

end Sys2Proof
end

