-- ==== Sys2Proof/WellFormed.lean ====
section
/-! DEFINITION. Which commands can be written: the operand fits the 11-bit field ARG (30_encoding.md R80, R87). -/

namespace Sys2Proof

/-- "a value 2048 or more cannot be written in this syntax" (R87). -/
def fitsArg (v : Nat) : Bool := decide (v < 2048)

/-- A command with a word of its own: each operand fits ARG; DERIVE and ZEROIZE have none (R82, R87). -/
def Instr.wellFormed : Instr → Bool
  | .loadbr n => fitsArg n
  | .rdbits c => fitsArg c
  | .lookup i => fitsArg i
  | .generate b => fitsArg b
  | .derive => true
  | .zeroize => true

end Sys2Proof
end

