-- ==== Sys2Proof/Decode.lean ====
section
/-! DEFINITION. Command words: the fields of CMD32 (30_encoding.md R80), the opcode map (R83), the decoder,
total on every 32-bit word (R86), the illegal words as R84 lists them, and the encoder (R87). -/

namespace Sys2Proof

/-! ### Fields (R80) -/

/-- OP = w[7:0]. -/
def opField (w : Word) : BitVec 8 := w.extractLsb' 0 8

/-- ARG = w[18:8]. -/
def argField (w : Word) : BitVec 11 := w.extractLsb' 8 11

/-- RSVD = w[31:19]. -/
def rsvdField (w : Word) : BitVec 13 := w.extractLsb' 19 13

/-! ### The opcode map (R83) -/

/-- One row of R83: a word w selects it when (w AND mask) = match. -/
structure OpRow where
  mnemonic : String
  pattern : Word
  mask : Word
  build : Nat → Instr

/-- The six rows of R83. -/
def opTable : List OpRow :=
  [⟨"LOADBR", 0x00000001, 0xFFF800FF, .loadbr⟩,
   ⟨"RDBITS", 0x00000002, 0xFFF800FF, .rdbits⟩,
   ⟨"LOOKUP", 0x00000003, 0xFFF800FF, .lookup⟩,
   ⟨"GENERATE", 0x00000004, 0xFFF800FF, .generate⟩,
   ⟨"DERIVE", 0x00000005, 0xFFFFFFFF, fun _ => .derive⟩,
   ⟨"ZEROIZE", 0x00000006, 0xFFFFFFFF, fun _ => .zeroize⟩]

/-- Does the word select the row? -/
def OpRow.selects (r : OpRow) (w : Word) : Bool := w &&& r.mask == r.pattern

/-! ### The illegal words (R84) -/

/-- The three ways a word can be illegal, in R84's order. -/
inductive Illegal where
  /-- w[31:19] is not 0. -/
  | rsvdNotZero
  /-- w[7:0] is 0x00 or 0x07 to 0xFF. -/
  | unusedOpcode
  /-- DERIVE or ZEROIZE with w[18:8] not 0. -/
  | argNotZero
deriving DecidableEq, Repr

/-- R84, clause by clause: is the word illegal? Written from R84 alone; the decoder is written from R83. -/
def illegalWord (w : Word) : Bool :=
  rsvdField w != 0 ||
  (opField w == 0 || decide (0x07 ≤ (opField w).toNat)) ||
  ((opField w == 0x05 || opField w == 0x06) && argField w != 0)

/-- The first clause of R84 that holds, for a word that selects no row. -/
def illegalReason (w : Word) : Illegal :=
  if rsvdField w != 0 then .rsvdNotZero
  else if opField w == 0x05 || opField w == 0x06 then .argNotZero
  else .unusedOpcode

/-! ### The decoder (R86) -/

/-- What a word decodes to: a command, or illegal, by name. -/
inductive Decoded where
  | command (i : Instr)
  | illegal (why : Illegal)
deriving DecidableEq, Repr

/-- Total on 32-bit words: the row the word selects, with ARG zero-extended, or illegal (R82, R83, R84, R86). -/
def decode (w : Word) : Decoded :=
  match opTable.find? (·.selects w) with
  | some r => .command (r.build (argField w).toNat)
  | none => .illegal (illegalReason w)

/-- The command the decoder reads from a row of the opcode table. A command is one 32-bit bus word, so the
word's bits are the table's bits; bits at `nbits` or above are 0. -/
def decodeTableWord (nbits w : Nat) : Option Instr :=
  match decode (BitVec.ofNat 32 (w % 2 ^ nbits)) with
  | .command i => some i
  | .illegal _ => none

/-! ### The encoder (R87) -/

/-- `opcode OR (ARG << 8)`. -/
def cmdWord (opcode arg : Nat) : Word := BitVec.ofNat 32 (opcode ||| arg <<< 8)

/-- The CMD word of a command (R87). -/
def encode : Instr → Word
  | .loadbr n => cmdWord 0x01 n
  | .rdbits c => cmdWord 0x02 c
  | .lookup i => cmdWord 0x03 i
  | .generate b => cmdWord 0x04 b
  | .derive => 0x00000005
  | .zeroize => 0x00000006

end Sys2Proof
end

