-- ==== Sys2Proof/Config.lean ====
section
/-! DEFINITION. What is fixed for one BIP39X: the constants of 00_scope.md R7, the parameters of R8
(93_implementation_defined.md PAR1 to PAR4) as opaque constants, and the free values of U1. -/

namespace Sys2Proof.Config

/-! ### Constants (R7) -/

/-- WORDS: the word list has exactly 2048 entries. -/
def words : Nat := 2048
/-- IDX_BITS: a word index is an 11-bit value. -/
def idxBits : Nat := 11
/-- COUNT_MAX: RDBITS takes a count of 1 (COUNT_MIN) to 64. -/
def countMax : Nat := 64
/-- ENT_BITS_ALLOWED. -/
def entBitsAllowed : List Nat := [128, 160, 192, 224, 256]
/-- KDF_ITER. -/
def kdfIter : Nat := 2048
/-- SEED_BYTES. -/
def seedBytes : Nat := 64
/-- SALT_PREFIX: the 8 ASCII bytes of "mnemonic". -/
def saltPrefix : ByteString := [0x6D, 0x6E, 0x65, 0x6D, 0x6F, 0x6E, 0x69, 0x63]
/-- SEP: one ASCII space. -/
def sep : Byte := 0x20
/-- EBUF_BYTES. -/
def ebufBytes : Nat := 32
/-- RBUF_BYTES: 32 entropy bytes and one checksum byte. -/
def rbufBytes : Nat := 33
/-- ROM_WORD_MAX: the largest ROM entry in bytes; also the size of WORD. -/
def romWordMax : Nat := 16
/-- WIDX_N: the largest word count. -/
def widxN : Nat := 24
/-- MBUF_BYTES. -/
def mbufBytes : Nat := 512
/-- PASS_BYTES. -/
def passBytes : Nat := 256
/-- WINDOW_BYTES. -/
def windowBytes : Nat := 4096

/-! ### Parameters (R8) -/

/-- BASE divided by 4096: BASE is any multiple of 4096 (PAR1). OPEN. -/
opaque basePage : Nat

/-- `BASE`, the bus address of the register window (R8, PAR1). -/
def base : Nat := windowBytes * basePage

/-- A candidate for WORDLIST, with no constraint on it. OPEN. -/
opaque rawWordList : Fin 2048 → ByteString

/-- A candidate for H256, with no constraint on it. OPEN. -/
opaque rawH256 : ByteString → Vector Byte 32

/-- `KDF(P, S, c, dkLen)`, the key derivation D06 computes (PAR4). OPEN: nothing is known of its values. -/
opaque kdf : (p s : ByteString) → (c dkLen : Nat) → Vector Byte dkLen

/-- The ASCII bytes of "abandon", ROM entry 0 (95_test_vectors.md X1). -/
def abandon : ByteString := [0x61, 0x62, 0x61, 0x6E, 0x64, 0x6F, 0x6E]

/-- The ASCII bytes of "about", the last word of the document's worked example (X1). -/
def about : ByteString := [0x61, 0x62, 0x6F, 0x75, 0x74]

/-- 16 zero bytes, the entropy of the worked example (X1). -/
def zeroEntropy : ByteString := List.replicate 16 0

/-- The index the checksum of 16 zero bytes selects: the top four bits of the digest's first byte (X1, PAR3). -/
def zeroIndex (h : ByteString → Vector Byte 32) : Fin 2048 := Fin.ofNat 2048 ((h zeroEntropy)[0].toNat / 16)

/-- The constraints the spec puts on the pair WORDLIST, H256: ROM(0) = "abandon", entries of 1 to 16 bytes,
unique (R8, PAR2), and the worked example's last word (PAR3). -/
abbrev Admissible (w : Fin 2048 → ByteString) (h : ByteString → Vector Byte 32) : Prop :=
  w 0 = abandon ∧ w (zeroIndex h) = about ∧ (∀ i, 1 ≤ (w i).length ∧ (w i).length ≤ romWordMax) ∧
    ∀ i j, w i = w j → i = j

/-- A word list meeting the constraints, taken only where the opaque candidates do not meet them, so that the
constraints are theorems and every admissible pair is still a possible one (log entry 1). -/
def fallbackWordList (i : Fin 2048) : ByteString :=
  if i.val = 0 then abandon else if i.val = 3 then about
  else [BitVec.ofNat 8 (i.val / 256), BitVec.ofNat 8 (i.val % 256)]

/-- The digest that goes with `fallbackWordList` (log entry 1). -/
def fallbackH256 (_ : ByteString) : Vector Byte 32 := Vector.replicate 32 0x30

/-- `WORDLIST`: the ROM contents (R8, R42). -/
def wordList (i : Fin 2048) : ByteString :=
  if Admissible rawWordList rawH256 then rawWordList i else fallbackWordList i

/-- `H256`: the 256-bit hash D06 computes (R8, PAR3). -/
def h256 (m : ByteString) : Vector Byte 32 :=
  if Admissible rawWordList rawH256 then rawH256 m else fallbackH256 m

/-! ### Free values -/

/-- U1 (93_implementation_defined.md): the value of the k-th host read that the spec leaves unspecified (R66). -/
opaque freeRead : Nat → Word

end Sys2Proof.Config
end

