-- ==== Sys2Proof/Machine/State.lean ====
section
/-! DEFINITION. The state of BIP39X (10_state.md R20 to R47), the reasons a step could stop, and the state after
reset (R47). -/

namespace Sys2Proof.Machine

/-- PHASE (R43); the values 4 to 7 are "never reached" and have no constructor (93_implementation_defined.md F10). -/
inductive Phase where
  /-- 0: no command, BUSY = 0. -/
  | idle
  /-- 1: a command is latched in CMDL and not yet executed. -/
  | decode
  /-- 2: GENERATE waits for HC's H256 answer. -/
  | hwait
  /-- 3: DERIVE waits for HC's KDF answer. -/
  | kwait
deriving DecidableEq, Repr

/-- The completion codes of ERR (60_exceptions.md R180); 5 to 15 are never produced (F10). -/
inductive ErrCode where
  /-- 0 -/
  | ok
  /-- 1: GENERATE, ARG not an allowed length. -/
  | invalidEntropySize
  /-- 2: RDBITS, too few bits remain. -/
  | insufficientData
  /-- 3: an illegal command word. -/
  | illegalCommand
  /-- 4: LOADBR, RDBITS or DERIVE, a parameter out of range. -/
  | paramRange
deriving DecidableEq, Repr

/-- A request of SEQ to the hash core, with the operands captured at issue (R44, R200). -/
inductive Request where
  | h256 (m : ByteString)
  | kdf (p s : ByteString) (c dkLen : Nat)
deriving DecidableEq, Repr

/-- MODEL'S OWN: what the last host access to the window got back (20_memory.md R61, R62; log entry 5). -/
inductive BusResp where
  /-- No host access yet. -/
  | noAccess
  /-- A write was taken (it may have had no effect). -/
  | accepted
  /-- A read returned this value. -/
  | data (v : Word)
  /-- The access was misaligned or narrow: a bus error response, no data. -/
  | busError
deriving DecidableEq, Repr

/-- MODEL'S OWN: whose step is next, and what a host access is (00_scope.md R4; log entry 2). `off` is the bus
address less BASE and `width` the access width in bits. -/
inductive Turn where
  /-- HOST reads. -/
  | read (off : Int) (width : Nat)
  /-- HOST writes `v`. -/
  | write (off : Int) (width : Nat) (v : Word)
  /-- SEQ. -/
  | seq
  /-- HC. -/
  | hc
  /-- The hardware reset input is asserted and released (70_reset_and_hazards.md R220). -/
  | reset
deriving DecidableEq, Repr

/-- The contents of the six data buffers, each at its offset in the window (R20), in canonical form: addresses
strictly rising, no entry equal to 0, which is what an unlisted address reads as (R47; log entry 8). -/
abbrev Memory := List Host.Cell

/-- Everything the spec gives the machine, then four fields of the model's own. -/
structure State where
  /-- CTRL.IE (R23). -/
  ie : Bool
  /-- STATUS.BUSY (R24). -/
  busy : Bool
  /-- STATUS.DONE (R24). -/
  done : Bool
  /-- STATUS.OVR (R24). -/
  ovr : Bool
  /-- STATUS.ERR (R24, R180). -/
  err : ErrCode
  /-- PHASE (R43). -/
  phase : Phase
  /-- CMDL (R26). -/
  cmdl : Word
  /-- RESULT (R27). -/
  result : BitVec 64
  /-- RLEN: 6 bits, legal values 0 to 33 (R28; log entry 9). -/
  rlen : Fin 34
  /-- CUR: 6 bits, at most RLEN, so at most 33 (R28; log entry 9). -/
  cur : Fin 34
  /-- NV: 7 bits, legal values 0 to 71 (R28; log entry 9). -/
  nv : Fin 72
  /-- ACC (R29). -/
  acc : BitVec 72
  /-- MLEN (R31). -/
  mlen : BitVec 16
  /-- PLEN (R32). -/
  plen : BitVec 16
  /-- WCOUNT: 5 bits, at most 24 (R33; log entry 9). -/
  wcount : Fin 25
  /-- WLEN: 5 bits, at most ROM_WORD_MAX (R34; log entry 9). -/
  wlen : Fin 17
  /-- WIDX[0..23] (R35). -/
  widx : Vector (BitVec 11) 24
  /-- EBUF, RBUF, WORD, SEED, PASS and MBUF (R36 to R41). -/
  mem : Memory
  /-- HREQ: `none` when its valid bit is 0 (R44). -/
  hreq : Option Request
  /-- HRESP: `none` when its valid bit is 0 (R44). -/
  hresp : Option ByteString
  /-- MODEL'S OWN: the steps the environment takes next, first one first (log entry 2). -/
  turns : List Turn
  /-- MODEL'S OWN: the premise `hc_responds` (R203), asked only when `turns` is empty (log entry 3). -/
  hcResponds : Bool
  /-- MODEL'S OWN: what the last host access got back (log entry 5). -/
  resp : BusResp
  /-- MODEL'S OWN: how many unspecified read values were drawn so far (U1; log entry 4). -/
  draws : Nat
deriving DecidableEq, Repr

/-- No fault stops this machine: every exception is a completion code in STATUS.ERR, never a trap (R190), and a bus
error is a response that changes no state (R62). There is therefore no constructor, which is neither safe nor
unsafe: no run ends here. -/
inductive Fault where
deriving DecidableEq, Repr

/-- The reasons a step could be refused. -/
inductive Refusal where
  /-- Raised only by an arm of exec for a command with no meaning yet (safe); every command has its meaning, so no
  step raises it. -/
  | notModelled (mnemonic : String)
deriving DecidableEq, Repr

/-- What one step answers. -/
abbrev Result := Host.Outcome State Fault Refusal

/-- The machine right after reset (R47): every piece of the spec's state at 0, IDLE, or invalid. The last four
fields are the model's own (log entries 2 to 5). -/
def State.reset : State where
  ie := false
  busy := false
  done := false
  ovr := false
  err := .ok
  phase := .idle
  cmdl := 0
  result := 0
  rlen := 0
  cur := 0
  nv := 0
  acc := 0
  mlen := 0
  plen := 0
  wcount := 0
  wlen := 0
  widx := Vector.replicate 24 0
  mem := []
  hreq := none
  hresp := none
  turns := []
  hcResponds := true
  resp := .noAccess
  draws := 0

end Sys2Proof.Machine
end

