-- ==== Sys2Proof/Machine/Ops.lean ====
section
/-! DEFINITION. The named operations over State: the buffers' memory, the state primitives of 00_scope.md R11
(`BUF[i]`, `complete`, `raise`, `HC.request`) and reset (70_reset_and_hazards.md R220, R221). -/

namespace Sys2Proof.Machine

/-! ### Memory -/

/-- The byte at an address; an unlisted one is 0, the reset value of every buffer byte (R47). -/
def Memory.read : Memory → Nat → Byte
  | [], _ => 0
  | (k, b) :: m, a => if k = a then b else Memory.read m a

/-- Store a byte, keeping the canonical form: storing 0 removes the entry. -/
def Memory.write : Memory → Nat → Byte → Memory
  | [], a, v => if v = 0 then [] else [(a, v)]
  | (k, b) :: m, a, v =>
    if a < k then (if v = 0 then (k, b) :: m else (a, v) :: (k, b) :: m)
    else if a = k then (if v = 0 then m else (a, v) :: m)
    else (k, b) :: Memory.write m a v

/-- Is every listed address at or above `lo`, strictly rising from there, and no listed byte 0? -/
def Memory.wfFrom : Nat → Memory → Bool
  | _, [] => true
  | lo, (k, b) :: m => decide (lo ≤ k) && b != 0 && Memory.wfFrom (k + 1) m

/-- The canonical form: addresses strictly rising, no entry equal to what an unlisted address reads as. -/
def Memory.wf (m : Memory) : Bool := Memory.wfFrom 0 m

/-! ### Buffers (R36 to R41, R63) -/

/-- The six data buffers (R11). -/
inductive Buf where
  | ebuf | rbuf | word | seed | pass | mbuf
deriving DecidableEq, Repr

/-- The window offset of a buffer's byte 0 (R20, R63). -/
def Buf.base : Buf → Nat
  | .ebuf => 0x200
  | .rbuf => 0x240
  | .word => 0x280
  | .seed => 0x300
  | .pass => 0x400
  | .mbuf => 0x800

/-- A buffer's size in bytes (R7, R36 to R41). -/
def Buf.size : Buf → Nat
  | .ebuf => Config.ebufBytes
  | .rbuf => Config.rbufBytes
  | .word => Config.romWordMax
  | .seed => Config.seedBytes
  | .pass => Config.passBytes
  | .mbuf => Config.mbufBytes

/-- `BUF[i]` (R11); a byte index at or above the size reads 0 (R63). -/
def State.buf (s : State) (b : Buf) (i : Nat) : Byte :=
  if i < b.size then Memory.read s.mem (b.base + i) else 0

/-- `BUF[i] <- v` (R11); a byte index at or above the size ignores the write (R63). -/
def State.setBuf (s : State) (b : Buf) (i : Nat) (v : Byte) : State :=
  if i < b.size then { s with mem := Memory.write s.mem (b.base + i) v } else s

/-- `BUF[lo..hi)` (R10). -/
def State.slice (s : State) (b : Buf) (lo hi : Nat) : ByteString :=
  (List.range (hi - lo)).map fun i => s.buf b (lo + i)

/-- `for t in 0 .. |l|-1: BUF[i + t] <- l[t]`. -/
def State.setBytes (s : State) (b : Buf) : Nat → ByteString → State
  | _, [] => s
  | i, v :: l => State.setBytes (s.setBuf b i v) b (i + 1) l

/-! ### Ending a command (R11, R187) -/

/-- `complete(code)`: the only way a command ends (R187). -/
def State.complete (s : State) (code : ErrCode) : State :=
  { s with busy := false, done := true, err := code, phase := .idle }

/-- `raise E`, taking an exception: `complete(code of E)` with no other state change. There is no trap, so no
saved state, vector or return beside it (R11, R182, R190, R191). -/
def State.raise (s : State) (e : ErrCode) : State := s.complete e

/-! ### The hash core's request latch (R200) -/

/-- `HC.request(...)` followed by PHASE <- p, as GENERATE and DERIVE do (R121, R150, R200). -/
def State.request (s : State) (r : Request) (p : Phase) : State :=
  { s with hreq := some r, phase := p }

/-! ### Reset (R220, R221) -/

/-- Every piece of the spec's state takes its R47 value; the model's own fields stay (log entries 2 to 5). The
hardware reset and the soft reset are this one operation (R221). -/
def State.resetAll (s : State) : State :=
  { State.reset with turns := s.turns, hcResponds := s.hcResponds, resp := s.resp, draws := s.draws }

end Sys2Proof.Machine
end

