-- ==== Sys2Proof/Machine/Operands.lean ====
section
/-! DEFINITION. What the commands compute from their operands: masks (00_scope.md R9), the ROM (R42), the entropy
sizes (41_codec.md R122 to R125), and zero-padded copies of byte strings. -/

namespace Sys2Proof.Machine

/-- `mask(c)` is 2^c - 1 (R9). -/
def mask (c : Nat) : Nat := 2 ^ c - 1

/-- ARG of the latched command, zero-extended to a natural (R82). -/
def State.arg (s : State) : Nat := (argField s.cmdl).toNat

/-- `ROM(i)`, for i up to 2047 (R11, R42). -/
def rom (i : Nat) : ByteString := Config.wordList (Fin.ofNat 2048 i)

/-- `(t < |l|) ? l[t] : 0` for t in 0 .. n-1 (R120, R153). -/
def padTo (n : Nat) (l : ByteString) : ByteString := (List.range n).map fun t => l.getD t 0

/-- b in {128, 160, 192, 224, 256} (R122). -/
def entropySizeOk (b : Nat) : Bool := Config.entBitsAllowed.contains b

/-- n = b / 8 (R121). -/
def entropyBytes (b : Nat) : Nat := b / 8

/-- cs = b / 32 (R124). -/
def checksumBits (b : Nat) : Nat := b / 32

/-- W = 3 * b / 32 (R125). -/
def wordCount (b : Nat) : Nat := 3 * b / 32

end Sys2Proof.Machine
end

