-- ==== Sys2Proof/Machine/Flags.lean ====
section
/-! DEFINITION. The status flags and the registers gathered from fields: STATUS, CTRL, BR_STATE, IRQ, and the
write rules of CTRL and STATUS (10_state.md R22 to R28, R45, R46). -/

namespace Sys2Proof.Machine

/-- ID, in every state (R22). -/
def idWord : Word := 0x0B390007

/-- A flag as a number. -/
def flagBit (b : Bool) : Nat := if b then 1 else 0

/-- The ERR codes (R180). -/
def ErrCode.code : ErrCode → Nat
  | .ok => 0
  | .invalidEntropySize => 1
  | .insufficientData => 2
  | .illegalCommand => 3
  | .paramRange => 4

/-- The PHASE values (R43). -/
def Phase.code : Phase → Nat
  | .idle => 0
  | .decode => 1
  | .hwait => 2
  | .kwait => 3

/-- STATUS as the host reads it: BUSY bit 0, DONE bit 1, OVR bit 2, ERR [7:4], PHASE [10:8] (R24). -/
def State.statusWord (s : State) : Word :=
  BitVec.ofNat 32 (flagBit s.busy + flagBit s.done * 2 + flagBit s.ovr * 4 + s.err.code * 16 + s.phase.code * 256)

/-- CTRL as the host reads it: IE in bit 0; SRST reads 0 (R23). -/
def State.ctrlWord (s : State) : Word := BitVec.ofNat 32 (flagBit s.ie)

/-- BR_STATE: RLEN [5:0], CUR [13:8], NV [22:16] (R28). -/
def State.brStateWord (s : State) : Word :=
  BitVec.ofNat 32 (s.rlen.val + s.cur.val * 2 ^ 8 + s.nv.val * 2 ^ 16)

/-- The IRQ output: IE AND DONE at every moment (R45, R188). -/
def State.irq (s : State) : Bool := s.ie && s.done

/-- A host write of v to CTRL: IE <- v[0], then the soft reset if v[1] = 1 (R23, R221). -/
def State.writeCtrl (s : State) (v : Word) : State :=
  if v.getLsbD 1 then State.resetAll { s with ie := v.getLsbD 0 } else { s with ie := v.getLsbD 0 }

/-- A host write of v to STATUS: DONE and OVR are cleared where v has a 1 (R25). -/
def State.writeStatus (s : State) (v : Word) : State :=
  { s with done := s.done && !v.getLsbD 1, ovr := s.ovr && !v.getLsbD 2 }

/-- A host write of v to CMD: it starts a command in IDLE and sets OVR otherwise (R26). -/
def State.writeCmd (s : State) (v : Word) : State :=
  if s.phase = .idle then { s with cmdl := v, busy := true, done := false, phase := .decode }
  else { s with ovr := true }

end Sys2Proof.Machine
end

