-- ==== Sys2Proof/Machine/Reader.lean ====
section
/-! DEFINITION. The bit-field extractor shared by RDBITS and GENERATE: byte pulls and the right barrel shift with
mask (40_bitreader.md R102 to R104, 41_codec.md R127). -/

namespace Sys2Proof.Machine

/-- How many bytes must be pulled before c bits can be extracted: ceil((c - NV) / 8), or 0 (R102). -/
def bytesToPull (c nv : Nat) : Nat := if nv < c then (c - nv + 7) / 8 else 0

/-- `Pull()`: append RBUF[CUR] below the accumulator's bits (R103). The 72-bit shift is the rule's mod 2^72. -/
def State.pull (s : State) : State :=
  { s with
    acc := s.acc <<< 8 ||| (s.buf .rbuf s.cur.val).setWidth 72
    cur := Fin.ofNat 34 (s.cur.val + 1)
    nv := Fin.ofNat 72 (s.nv.val + 8) }

/-- `repeat k times: Pull()` (R102). -/
def State.pulls : Nat → State → State
  | 0, s => s
  | k + 1, s => State.pulls k s.pull

/-- The value `Extract(c)` returns (R104). -/
def State.extracted (s : State) (c : Nat) : BitVec 64 :=
  BitVec.ofNat 64 (s.acc.toNat >>> (s.nv.val - c) &&& mask c)

/-- The state `Extract(c)` leaves: NV <- NV - c and the consumed bits cleared (R104). -/
def State.consume (s : State) (c : Nat) : State :=
  { s with
    nv := Fin.ofNat 72 (s.nv.val - c)
    acc := BitVec.ofNat 72 (s.acc.toNat &&& mask (s.nv.val - c)) }

/-- The state after the pulls a read of c bits needs (R102). -/
def State.fill (s : State) (c : Nat) : State := State.pulls (bytesToPull c s.nv.val) s

/-- `Read11()`: RDBITS 11 without its tests and without the write to RESULT; W of them, in order (R127). -/
def State.read11s : Nat → State → List (BitVec 11) × State
  | 0, s => ([], s)
  | w + 1, s =>
    let f := s.fill Config.idxBits
    let r := State.read11s w (f.consume Config.idxBits)
    ((f.extracted Config.idxBits).setWidth 11 :: r.1, r.2)

end Sys2Proof.Machine
end

