-- ==== Sys2Proof/Machine/BitReader.lean ====
section
/-! DEFINITION. The bit-reader commands LOADBR and RDBITS (40_bitreader.md R100 to R108). -/

namespace Sys2Proof.Machine

/-- LOADBR n (R101). RBUF is not copied: each pull reads RBUF[CUR] at that time. -/
def execLoadbr (n : Nat) (s : State) : Result :=
  if Config.rbufBytes < n then .next (s.raise .paramRange)
  else .next (State.complete { s with rlen := Fin.ofNat 34 n, cur := 0, nv := 0, acc := 0 } .ok)

/-- RDBITS c (R102); ParamRange is tested first (R183), and a failed read changes nothing but the fields of
`complete` (R107). -/
def execRdbits (c : Nat) (s : State) : Result :=
  if c < 1 ∨ Config.countMax < c then .next (s.raise .paramRange)
  else if s.rlen.val < s.cur.val + bytesToPull c s.nv.val then .next (s.raise .insufficientData)
  else
    let f := s.fill c
    .next (State.complete { f.consume c with result := f.extracted c } .ok)

end Sys2Proof.Machine
end

