-- ==== Sys2Proof/Machine/Codec.lean ====
section
/-! DEFINITION. The codec commands LOOKUP and GENERATE (41_codec.md R120 to R133). GENERATE's first SEQ step is its
meaning in exec; its second, taken once HC has answered, is `State.generateFinish`. -/

namespace Sys2Proof.Machine

/-- LOOKUP i (R120): WORD is the entry padded with zeros, WLEN its length. -/
def execLookup (i : Nat) (s : State) : Result :=
  .next (State.complete
    { s.setBytes .word 0 (padTo Config.romWordMax (rom i)) with wlen := Fin.ofNat 17 (rom i).length } .ok)

/-- GENERATE b, step 1 (R121): the size test comes before any request or write (R122); the message is captured in
HREQ (R123). -/
def execGenerate (b : Nat) (s : State) : Result :=
  if entropySizeOk b then .next (s.request (.h256 (s.slice .ebuf 0 (entropyBytes b))) .hwait)
  else .next (s.raise .invalidEntropySize)

/-- `Pack(E, d0)` (R126): RBUF[n+1..33) keeps its value. -/
def State.pack (s : State) (e : ByteString) (d0 : Byte) : State :=
  { s.setBytes .rbuf 0 (e ++ [d0]) with rlen := Fin.ofNat 34 (e.length + 1), cur := 0, nv := 0, acc := 0 }

/-- The words of a sentence joined by single spaces (R128). -/
def sentence : List ByteString → ByteString
  | [] => []
  | [w] => w
  | w :: ws => w ++ Config.sep :: sentence ws

/-- `Assemble(W)` (R128), from the indices in order: MBUF[0..|T|) <- T and MLEN <- |T|; MBUF[|T|..512) keeps its
value. -/
def State.assemble (s : State) (idx : List (BitVec 11)) : State :=
  let t := sentence (idx.map fun i => rom i.toNat)
  { s.setBytes .mbuf 0 t with mlen := BitVec.ofNat 16 t.length }

/-- WIDX[j] <- the j-th index; the entries past the last one are cleared (R121). -/
def widxOf (idx : List (BitVec 11)) : Vector (BitVec 11) 24 := Vector.ofFn fun j => idx.getD j.val 0

/-- GENERATE, step 2 (R121), with b the ARG of CMDL and D = the answer's bytes. -/
def State.generateFinish (s : State) (answer : ByteString) : State :=
  let b := s.arg
  let p := State.pack { s with hresp := none } (s.slice .ebuf 0 (entropyBytes b)) (answer.getD 0 0)
  let r := State.read11s (wordCount b) p
  let q := State.assemble { r.2 with widx := widxOf r.1, wcount := Fin.ofNat 25 (wordCount b) } r.1
  q.complete .ok

end Sys2Proof.Machine
end

