-- ==== Sys2Proof/Machine/Maintenance.lean ====
section
/-! DEFINITION. The maintenance command ZEROIZE (43_maintenance.md R170). -/

namespace Sys2Proof.Machine

/-- ZEROIZE (R170): every data register and every byte of the six buffers; IE, OVR and CMDL are kept. -/
def execZeroize (s : State) : Result :=
  .next (State.complete
    { s with
      result := 0, rlen := 0, cur := 0, nv := 0, acc := 0, mlen := 0, plen := 0, wcount := 0, wlen := 0
      widx := Vector.replicate 24 0
      mem := [] } .ok)

end Sys2Proof.Machine
end

