-- ==== Sys2Proof/Machine/Seed.lean ====
section
/-! DEFINITION. The seed command DERIVE (42_seed.md R150 to R157). Its first SEQ step is its meaning in exec; its
second, taken once HC has answered, is `State.deriveFinish`. -/

namespace Sys2Proof.Machine

/-- P, the key material: MBUF[0..MLEN) (R152). -/
def State.password (s : State) : ByteString := s.slice .mbuf 0 s.mlen.toNat

/-- S, the salt: "mnemonic" followed by PASS[0..PLEN) (R152). -/
def State.salt (s : State) : ByteString := Config.saltPrefix ++ s.slice .pass 0 s.plen.toNat

/-- DERIVE, step 1 (R150): the length tests come before any request (R151). -/
def execDerive (s : State) : Result :=
  if Config.mbufBytes < s.mlen.toNat ∨ Config.passBytes < s.plen.toNat then .next (s.raise .paramRange)
  else .next (s.request (.kdf s.password s.salt Config.kdfIter Config.seedBytes) .kwait)

/-- DERIVE, step 2 (R150, R153): SEED[t] <- answer byte t for t = 0 to 63, in one step. -/
def State.deriveFinish (s : State) (answer : ByteString) : State :=
  State.complete { s.setBytes .seed 0 (padTo Config.seedBytes answer) with hresp := none } .ok

end Sys2Proof.Machine
end

