-- ==== Sys2Proof/Machine/Dispatch.lean ====
section
/-! DEFINITION. exec: what SEQ's DECODE step does for each command (60_exceptions.md R186). -/

namespace Sys2Proof.Machine

def exec (i : Instr) (s : State) : Host.Outcome State Fault Refusal :=
  match i with
  | .loadbr n => Sys2Proof.Machine.execLoadbr n s
  | .rdbits c => Sys2Proof.Machine.execRdbits c s
  | .lookup idx => Sys2Proof.Machine.execLookup idx s
  | .generate b => Sys2Proof.Machine.execGenerate b s
  | .derive => Sys2Proof.Machine.execDerive s
  | .zeroize => Sys2Proof.Machine.execZeroize s

end Sys2Proof.Machine
end

