-- ==== Sys2Proof/Machine/HashCore.lean ====
section
/-! DEFINITION. The D06 hash core, agent HC (60_exceptions.md R200 to R204). -/

namespace Sys2Proof.Machine

/-- What HC answers: it depends only on the captured operands (R201). -/
def Request.answer : Request → ByteString
  | .h256 m => (Config.h256 m).toList
  | .kdf p s c dkLen => (Config.kdf p s c dkLen).toList

/-- HC's step, enabled exactly when HREQ is valid (R201); otherwise nothing happens. -/
def State.hcStep (s : State) : State :=
  match s.hreq with
  | some r => { s with hreq := none, hresp := some r.answer }
  | none => s

end Sys2Proof.Machine
end

