-- ==== Sys2Proof/Machine/HostBus.lean ====
section
/-! DEFINITION. The host register window: the map of 10_state.md R20, and host reads and writes (20_memory.md R61
to R67, R70). -/

namespace Sys2Proof.Machine

/-- What stands at a word offset of the window (R20). `buf b i` is the word that holds bytes i to i+3 of b. -/
inductive Loc where
  | id | ctrl | status | cmd | resultLo | resultHi | brState | acc0 | acc1 | acc2
  | mlen | plen | wcount | wlen
  | widx (j : Nat)
  | buf (b : Buf) (i : Nat)
  | reserved
deriving DecidableEq, Repr

/-- The bytes a buffer takes of the window: its size up to a whole word (R20: RBUF runs to 0x263). -/
def Buf.span (b : Buf) : Nat := (b.size + 3) / 4 * 4

/-- The offset lies in the buffer's part of the window. -/
abbrev Buf.covers (b : Buf) (off : Nat) : Prop := b.base ≤ off ∧ off < b.base + b.span

/-- The registers of the map R20, at a word offset below 0x100. -/
def locateReg (off : Nat) : Loc :=
  if off = 0x000 then .id
  else if off = 0x004 then .ctrl
  else if off = 0x008 then .status
  else if off = 0x00C then .cmd
  else if off = 0x010 then .resultLo
  else if off = 0x014 then .resultHi
  else if off = 0x018 then .brState
  else if off = 0x01C then .acc0
  else if off = 0x020 then .acc1
  else if off = 0x024 then .acc2
  else if off = 0x028 then .mlen
  else if off = 0x02C then .plen
  else if off = 0x030 then .wcount
  else if off = 0x034 then .wlen
  else .reserved

/-- The buffers of the map R20, at a word offset. -/
def locateBuf (off : Nat) : Loc :=
  if Buf.ebuf.covers off then .buf .ebuf (off - Buf.ebuf.base)
  else if Buf.rbuf.covers off then .buf .rbuf (off - Buf.rbuf.base)
  else if Buf.word.covers off then .buf .word (off - Buf.word.base)
  else if Buf.seed.covers off then .buf .seed (off - Buf.seed.base)
  else if Buf.pass.covers off then .buf .pass (off - Buf.pass.base)
  else if Buf.mbuf.covers off then .buf .mbuf (off - Buf.mbuf.base)
  else .reserved

/-- The map R20, at a word offset: the registers, WIDX from 0x100 to 0x15F, the buffers. -/
def locate (off : Nat) : Loc :=
  if off < 0x100 then locateReg off
  else if off < 0x160 then .widx ((off - 0x100) / 4)
  else locateBuf off

/-! ### Byte lanes (R63) -/

/-- `X[i] | X[i+1] << 8 | X[i+2] << 16 | X[i+3] << 24` (R63). -/
def State.bufWord (s : State) (b : Buf) (i : Nat) : Word :=
  s.buf b (i + 3) ++ s.buf b (i + 2) ++ s.buf b (i + 1) ++ s.buf b i

/-- Byte `lane` of a word: v[8*lane+7 : 8*lane] (R63). -/
def laneByte (v : Word) (lane : Nat) : Byte := v.extractLsb' (8 * lane) 8

/-- `X[i] <- v[7:0]; X[i+1] <- v[15:8]; X[i+2] <- v[23:16]; X[i+3] <- v[31:24]` (R63). -/
def State.setBufWord (s : State) (b : Buf) (i : Nat) (v : Word) : State :=
  s.setBytes b i [laneByte v 0, laneByte v 1, laneByte v 2, laneByte v 3]

/-! ### Reads (R64, R66) -/

/-- The value of a location while BUSY = 0 (R22 to R41, R63, R64, R70). -/
def State.readLoc (s : State) : Loc → Word
  | .id => idWord
  | .ctrl => s.ctrlWord
  | .status => s.statusWord
  | .cmd => s.cmdl
  | .resultLo => s.result.extractLsb' 0 32
  | .resultHi => s.result.extractLsb' 32 32
  | .brState => s.brStateWord
  | .acc0 => s.acc.extractLsb' 0 32
  | .acc1 => s.acc.extractLsb' 32 32
  | .acc2 => (s.acc.extractLsb' 64 8).setWidth 32
  | .mlen => s.mlen.setWidth 32
  | .plen => s.plen.setWidth 32
  | .wcount => BitVec.ofNat 32 s.wcount.val
  | .wlen => BitVec.ofNat 32 s.wlen.val
  | .widx j => (s.widx[j]?.getD 0).setWidth 32
  | .buf b i => s.bufWord b i
  | .reserved => 0

/-- The locations whose reads are defined while BUSY = 1: ID, CTRL, STATUS, CMD (R66), and reserved ones, which
read 0 in every phase (R64). -/
def Loc.readableBusy : Loc → Bool
  | .id => true
  | .ctrl => true
  | .status => true
  | .cmd => true
  | .reserved => true
  | .resultLo => false
  | .resultHi => false
  | .brState => false
  | .acc0 => false
  | .acc1 => false
  | .acc2 => false
  | .mlen => false
  | .plen => false
  | .wcount => false
  | .wlen => false
  | .widx _ => false
  | .buf _ _ => false

/-- `HostRead` of a location: no side effect (R67); while BUSY = 1 a value that is not defined is a fresh free
draw (R66, U1). -/
def State.hostRead (s : State) (l : Loc) : State :=
  if s.busy && !l.readableBusy then { s with resp := .data (Config.freeRead s.draws), draws := s.draws + 1 }
  else { s with resp := .data (s.readLoc l) }

/-! ### Writes (R64, R65) -/

/-- A write that BUSY = 1 turns away: nothing but OVR <- 1 (R65). -/
def State.unlessBusy (s : State) (written : State) : State :=
  if s.busy then { s with ovr := true } else written

/-- What a host write of v does to a location (R23, R25, R26, R31, R32, R36, R37, R40, R41, R64, R65). -/
def State.writeLoc (s : State) (v : Word) : Loc → State
  | .ctrl => s.writeCtrl v
  | .status => s.writeStatus v
  | .cmd => s.writeCmd v
  | .mlen => s.unlessBusy { s with mlen := v.setWidth 16 }
  | .plen => s.unlessBusy { s with plen := v.setWidth 16 }
  | .buf .ebuf i => s.unlessBusy (s.setBufWord .ebuf i v)
  | .buf .rbuf i => s.unlessBusy (s.setBufWord .rbuf i v)
  | .buf .pass i => s.unlessBusy (s.setBufWord .pass i v)
  | .buf .mbuf i => s.unlessBusy (s.setBufWord .mbuf i v)
  | .buf .word _ => s
  | .buf .seed _ => s
  | .id => s
  | .resultLo => s
  | .resultHi => s
  | .brState => s
  | .acc0 => s
  | .acc1 => s
  | .acc2 => s
  | .wcount => s
  | .wlen => s
  | .widx _ => s
  | .reserved => s

/-- `HostWrite` of a location. -/
def State.hostWrite (s : State) (l : Loc) (v : Word) : State := { s.writeLoc v l with resp := .accepted }

/-! ### Accesses (R61, R62) -/

/-- Does the offset lie in the window, BASE to BASE + 0xFFF? -/
def inWindow (off : Int) : Bool := decide (0 ≤ off ∧ off < Config.windowBytes)

/-- Is the access one 32-bit word at a multiple of 4 (R61)? -/
def wordAccess (off : Int) (width : Nat) : Bool := decide (width = 32 ∧ off.toNat % 4 = 0)

/-- A host read: outside the window it is no access; misaligned or narrow it gets a bus error (R62). -/
def State.busRead (s : State) (off : Int) (width : Nat) : State :=
  if !inWindow off then s
  else if !wordAccess off width then { s with resp := .busError }
  else s.hostRead (locate off.toNat)

/-- A host write, likewise (R62). -/
def State.busWrite (s : State) (off : Int) (width : Nat) (v : Word) : State :=
  if !inWindow off then s
  else if !wordAccess off width then { s with resp := .busError }
  else s.hostWrite (locate off.toNat) v

/-- The host's read of a bus address, as a turn: the window stands at BASE (R71). -/
def readAt (addr width : Nat) : Turn := .read ((addr : Int) - Config.base) width

/-- The host's write of a bus address, as a turn: the window stands at BASE (R71). -/
def writeAt (addr width : Nat) (v : Word) : Turn := .write ((addr : Int) - Config.base) width v

end Sys2Proof.Machine
end

