-- ==== Sys2Proof/Machine/Sequencer.lean ====
section
/-! DEFINITION. SEQ's step (60_exceptions.md R186) and the step of each agent's turn (00_scope.md R4). -/

namespace Sys2Proof.Machine

/-- Has SEQ a step (R186)? -/
def State.seqEnabled (s : State) : Bool :=
  match s.phase with
  | .idle => false
  | .decode => true
  | .hwait => s.hresp.isSome
  | .kwait => s.hresp.isSome

/-- The DECODE step: an illegal word raises IllegalCommand before any command's own test (R181, R186). -/
def State.decodeStep (s : State) : Result :=
  match decode s.cmdl with
  | .command i => exec i s
  | .illegal _ => .next (s.raise .illegalCommand)

/-- SEQ's step; where SEQ has none, nothing happens (R186). -/
def State.seqStep (s : State) : Result :=
  match s.phase, s.hresp with
  | .idle, _ => .next s
  | .decode, _ => s.decodeStep
  | .hwait, some answer => .next (s.generateFinish answer)
  | .kwait, some answer => .next (s.deriveFinish answer)
  | .hwait, none => .next s
  | .kwait, none => .next s

/-- One turn of an agent or of the reset input (R4, R61, R186, R201, R220). -/
def State.take (s : State) : Turn → Result
  | .read off width => .next (s.busRead off width)
  | .write off width v => .next (s.busWrite off width v)
  | .seq => s.seqStep
  | .hc => .next s.hcStep
  | .reset => .next s.resetAll

/-- When the environment plans no turn: SEQ goes on if it can; else HC answers if `hcResponds` says that it does;
else nothing moves (log entries 2 and 3). -/
def State.unplanned (s : State) : Result :=
  if s.seqEnabled then s.seqStep
  else if s.hcResponds then .next s.hcStep
  else .next s

end Sys2Proof.Machine
end

