-- ==== Sys2Proof/Machine/Step.lean ====
section
/-! DEFINITION. One step of the machine: the turn that stands first in `turns`, or, when none is planned, what the
block does on its own (20_memory.md R73; log entry 2). -/

namespace Sys2Proof.Machine

/-- One atomic step (R73): exactly one agent moves. -/
def step (s : State) : Host.Outcome State Fault Refusal :=
  match s.turns with
  | t :: rest => State.take { s with turns := rest } t
  | [] => s.unplanned

/-- s with a command word latched as an accepted CMD write latches it (R26) and SEQ's turn first, so that the very
next step decodes and runs exactly that word (log entry 6). -/
def State.withFetchWord (s : State) (nbits w : Nat) : State :=
  { s with
    cmdl := BitVec.ofNat 32 (w % 2 ^ nbits)
    busy := true
    done := false
    phase := .decode
    turns := .seq :: s.turns }

end Sys2Proof.Machine
end

