-- ==== Sys2Proof/Safety.lean ====
section
/-! DEFINITION. The terms claims are stated in: bit streams (00_scope.md R10, 10_state.md R30), runs, and the
invariant of every reachable state. -/

namespace Sys2Proof.Machine

/-! ### Bit streams -/

/-- The bits of a byte, bit 7 first (R10). -/
def bitsOfByte (b : Byte) : List Bool := (List.range 8).map fun i => b.getLsbD (7 - i)

/-- The bit stream of a byte string (R10). -/
def bitStream (l : ByteString) : List Bool := l.flatMap bitsOfByte

/-- A list of bits as an unsigned number, the first bit most significant. -/
def natOfBits (l : List Bool) : Nat := l.foldl (fun n b => 2 * n + flagBit b) 0

/-- The valid bits of ACC, the oldest first: ACC[NV-1], ..., ACC[0] (R29, R30). -/
def State.accBits (s : State) : List Bool :=
  (List.range s.nv.val).map fun i => s.acc.getLsbD (s.nv.val - 1 - i)

/-- The bits still to be consumed, oldest first (R30). -/
def State.stream (s : State) : List Bool := s.accBits ++ bitStream (s.slice .rbuf s.cur.val s.rlen.val)

/-! ### Runs -/

/-- k steps of the machine. -/
def State.run (k : Nat) (s : State) : Result := Host.Core.run Sys2Proof.core k s

/-- Does the turn reset the block: the reset input, or a host write of CTRL with bit 1 set (R220, R221)? -/
def Turn.resets : Turn → Bool
  | .reset => true
  | .write off width v => decide (off = 0x004) && decide (width = 32) && v.getLsbD 1
  | .read _ _ => false
  | .seq => false
  | .hc => false

/-- Is the turn a host access? -/
def Turn.isHost : Turn → Bool
  | .read _ _ => true
  | .write _ _ _ => true
  | .seq => false
  | .hc => false
  | .reset => false

/-- Is SEQ the agent that may move: its turn is first, or no turn is planned (log entry 2)? -/
def State.seqToMove (s : State) : Prop := s.turns.head? = some .seq ∨ s.turns = []

/-! ### The invariant -/

/-- A window offset that is a byte of one of the six buffers (R20). -/
def mapped (a : Nat) : Prop := ∃ b : Buf, b.base ≤ a ∧ a < b.base + b.size

/-- What HREQ and HRESP hold while SEQ waits for the answer to r: the request, or its answer (R186, R200, R201). -/
def State.awaits (s : State) (r : Request) : Prop :=
  (s.hreq = some r ∧ s.hresp = none) ∨ (s.hreq = none ∧ s.hresp = some r.answer)

/-- The invariant of the machine: it holds at reset and every step keeps it. -/
structure State.Inv (s : State) : Prop where
  /-- The memory is in canonical form. -/
  memWf : Memory.wf s.mem = true
  /-- Memory lists bytes of the six buffers only. -/
  memMapped : ∀ c ∈ s.mem, mapped c.1
  /-- "BUSY = 1 exactly when PHASE is not IDLE" (R43). -/
  busyIff : s.busy = true ↔ s.phase ≠ .idle
  /-- DONE is clear while a command runs (R24, R26). -/
  busyNotDone : s.busy = true → s.done = false
  /-- CUR is at most RLEN (R28). -/
  curLe : s.cur.val ≤ s.rlen.val
  /-- "Between commands NV <= 7" (R28, R105). -/
  nvLe : s.nv.val ≤ 7
  /-- "ACC < 2^NV" (R29, R105). -/
  accLt : s.acc.toNat < 2 ^ s.nv.val
  /-- WCOUNT is 0 or a word count GENERATE produces (R33). -/
  wcountOk : s.wcount.val ∈ [0, 12, 15, 18, 21, 24]
  /-- "HREQ.valid and HRESP.valid are both 0 whenever PHASE is IDLE or DECODE" (R186). -/
  quiet : s.phase = .idle ∨ s.phase = .decode → s.hreq = none ∧ s.hresp = none
  /-- In HWAIT a GENERATE of an allowed length waits for the digest of its entropy (R121, R123). -/
  hashing : s.phase = .hwait → decode s.cmdl = .command (.generate s.arg) ∧ entropySizeOk s.arg = true ∧
    s.awaits (.h256 (s.slice .ebuf 0 (entropyBytes s.arg)))
  /-- In KWAIT a DERIVE with lengths in range waits for the key of its mnemonic and salt (R150 to R152). -/
  seeding : s.phase = .kwait → decode s.cmdl = .command .derive ∧ s.mlen.toNat ≤ Config.mbufBytes ∧
    s.plen.toNat ≤ Config.passBytes ∧
    s.awaits (.kdf s.password s.salt Config.kdfIter Config.seedBytes)

end Sys2Proof.Machine
end

