-- ==== Sys2Proof/Certificates/Slice0/Obligations.lean ====
section
/-! DEFINITION. The statements for the provers. -/

open Sys2Proof Sys2Proof.Machine

/-! ### Command words -/

/-- Every well-formed command's CMD word decodes to that command, with every operand the 11-bit field admits
(30_encoding.md R80, R82, R83, R87). -/
def Obligations.DecodeEncodeRoundTrip : Prop :=
  ∀ i : Instr, i.wellFormed = true → decode (encode i) = .command i

/-- A word that decodes to a command is that command's CMD word, so each command has one word (R80, R83, R87). -/
def Obligations.DecodedWordEncodesBack : Prop :=
  ∀ (w : Word) (i : Instr), decode w = .command i → i.wellFormed = true ∧ encode i = w

/-- R86: every 32-bit word selects exactly one row of R83, or is illegal by R84 and selects none; the decoder
answers a command in the first case and `illegal` in the second. -/
def Obligations.EveryWordSelectsOneRowOrIsIllegal : Prop :=
  ∀ w : Word,
    (opTable.filter (·.selects w)).length = (if illegalWord w then 0 else 1) ∧
    (illegalWord w = false → ∃ i, decode w = .command i) ∧
    (illegalWord w = true → ∃ why, decode w = .illegal why)

/-- Words written out from R80 and the table of 95_test_vectors.md section 2.7. -/
def Obligations.SampleWordsDecode : Prop :=
  decode 0x00000301 = .command (.loadbr 3) ∧ decode 0x00000B02 = .command (.rdbits 11) ∧
  decode 0x0007FF03 = .command (.lookup 2047) ∧ decode 0x00010004 = .command (.generate 256) ∧
  decode 0x00000005 = .command .derive ∧ decode 0x00000006 = .command .zeroize ∧
  decode 0x00000000 = .illegal .unusedOpcode ∧ decode 0x00000007 = .illegal .unusedOpcode ∧
  decode 0x00080002 = .illegal .rsvdNotZero ∧ decode 0x80000003 = .illegal .rsvdNotZero ∧
  decode 0x00000105 = .illegal .argNotZero ∧ decode 0x00000106 = .illegal .argNotZero

/-! ### The step -/

/-- In PHASE = DECODE a latched word that decodes to a command is run by SEQ's next turn, or, with no turn planned,
by the very next step (R186; that an empty plan lets SEQ go on is the model's choice, log entry 2). -/
def Obligations.StepRunsDecodedCommand : Prop :=
  ∀ (s : State) (i : Instr), s.phase = .decode → decode s.cmdl = .command i →
    (∀ rest, s.turns = .seq :: rest → step s = exec i { s with turns := rest }) ∧
    (s.turns = [] → step s = exec i s)

/-- R181: an illegal latched word is raised as IllegalCommand in the DECODE step and changes only what `complete`
writes. -/
def Obligations.IllegalWordRaisesIllegalCommand : Prop :=
  ∀ (s : State) (rest : List Turn), s.phase = .decode → illegalWord s.cmdl = true → s.turns = .seq :: rest →
    step s = .next { s with turns := rest, busy := false, done := true, err := .illegalCommand, phase := .idle }

/-- `withFetchWord` latches the word as an accepted CMD write does (R26) and the next step runs it (R186; log
entry 6: that a command can be placed so is the model's own). -/
def Obligations.FetchWordRunsCommand : Prop :=
  ∀ (s : State) (i : Instr), i.wellFormed = true →
    step (s.withFetchWord 32 (encode i).toNat) =
      exec i { s with cmdl := encode i, busy := true, done := false, phase := .decode }

/-- No trap and no stop: every step of every state answers a next state (R86, R190). -/
def Obligations.EveryStepAnswersNext : Prop :=
  ∀ s : State, ∃ t, step s = .next t

/-! ### LOADBR and RDBITS -/

/-- R101: LOADBR n with n at most 33 sets RLEN to n, clears CUR, NV and ACC and completes with OK; with n above 33
it raises ParamRange. Nothing else changes, RESULT and memory included. -/
def Obligations.LoadbrLoadsReader : Prop :=
  ∀ (n : Nat) (s : State),
    (n ≤ 33 → ∃ t, exec (.loadbr n) s = .next t ∧ t.rlen.val = n ∧
      t = { s with rlen := t.rlen, cur := 0, nv := 0, acc := 0,
                   busy := false, done := true, err := .ok, phase := .idle }) ∧
    (33 < n → exec (.loadbr n) s =
      .next { s with busy := false, done := true, err := .paramRange, phase := .idle })

/-- R106, the stream form of RDBITS c for 1 ≤ c ≤ 64. With L = NV + 8 (RLEN - CUR) the length of the stream: it
succeeds when c ≤ L, RESULT is the first c bits as a number, the stream loses them, CUR and NV move by the fewest
pulls, ACC holds the valid bits alone; it raises InsufficientData when L < c. Nothing else changes. The premise
CUR ≤ RLEN is part of `State.Inv`. -/
def Obligations.RdbitsReadsStream : Prop :=
  ∀ (c : Nat) (s : State), 1 ≤ c → c ≤ 64 → s.cur.val ≤ s.rlen.val →
    s.stream.length = s.nv.val + 8 * (s.rlen.val - s.cur.val) ∧
    (c ≤ s.stream.length → ∃ t, exec (.rdbits c) s = .next t ∧
      t.result.toNat = natOfBits (s.stream.take c) ∧
      t.stream = s.stream.drop c ∧
      t.cur.val = s.cur.val + (c - s.nv.val + 7) / 8 ∧
      t.nv.val = s.nv.val + 8 * ((c - s.nv.val + 7) / 8) - c ∧
      t.acc.toNat = natOfBits t.accBits ∧
      t = { s with result := t.result, cur := t.cur, nv := t.nv, acc := t.acc,
                   busy := false, done := true, err := .ok, phase := .idle }) ∧
    (s.stream.length < c → exec (.rdbits c) s =
      .next { s with busy := false, done := true, err := .insufficientData, phase := .idle })

/-- R107: a failed RDBITS changes nothing but what `complete` writes, ParamRange being tested first, and a later
RDBITS then does exactly what it would have done before the failure. -/
def Obligations.FailedRdbitsIsAtomic : Prop :=
  (∀ (c : Nat) (s : State), c < 1 ∨ 64 < c → exec (.rdbits c) s =
    .next { s with busy := false, done := true, err := .paramRange, phase := .idle }) ∧
  (∀ (c : Nat) (s : State), 1 ≤ c → c ≤ 64 → s.rlen.val < s.cur.val + (c - s.nv.val + 7) / 8 →
    exec (.rdbits c) s = .next { s with busy := false, done := true, err := .insufficientData, phase := .idle }) ∧
  (∀ (c c' : Nat) (s t : State), exec (.rdbits c) s = .next t → t.err ≠ .ok →
    exec (.rdbits c') t = exec (.rdbits c') s)

/-- R103: a pull appends RBUF[CUR] at the least-significant end of ACC, moves CUR by one byte and NV by eight bits,
changes nothing else, and loses no bit of the stream. -/
def Obligations.PullAppendsOneByte : Prop :=
  ∀ s : State, s.cur.val < s.rlen.val → s.nv.val < 64 →
    s.pull.acc.toNat = (s.acc.toNat <<< 8 ||| (s.buf .rbuf s.cur.val).toNat) % 2 ^ 72 ∧
    s.pull.cur.val = s.cur.val + 1 ∧ s.pull.nv.val = s.nv.val + 8 ∧
    s.pull = { s with acc := s.pull.acc, cur := s.pull.cur, nv := s.pull.nv } ∧
    s.pull.stream = s.stream

/-- R104: extracting c bits returns the oldest c valid bits, right-justified and zero-extended, takes c from NV and
clears the consumed bits; nothing else changes. -/
def Obligations.ExtractTakesOldestBits : Prop :=
  ∀ (s : State) (c : Nat), c ≤ s.nv.val → c ≤ 64 →
    (s.extracted c).toNat = s.acc.toNat >>> (s.nv.val - c) &&& (2 ^ c - 1) ∧
    (s.extracted c).toNat = natOfBits (s.accBits.take c) ∧
    (s.consume c).nv.val = s.nv.val - c ∧
    (s.consume c).acc.toNat = s.acc.toNat &&& (2 ^ (s.nv.val - c) - 1) ∧
    (s.consume c).accBits = s.accBits.drop c ∧
    s.consume c = { s with nv := (s.consume c).nv, acc := (s.consume c).acc }

/-- R105: with at most 7 valid bits and nothing above them, a read of 1 to 64 bits that finds its bytes shifts by 0
to 7 a value below 2^71, and leaves at most 7 valid bits and nothing above them. -/
def Obligations.ShiftIsAtMostSeven : Prop :=
  ∀ (s : State) (c : Nat), s.nv.val ≤ 7 → s.acc.toNat < 2 ^ s.nv.val → 1 ≤ c → c ≤ 64 →
    s.cur.val + (c - s.nv.val + 7) / 8 ≤ s.rlen.val →
    c ≤ (s.fill c).nv.val ∧ (s.fill c).nv.val - c ≤ 7 ∧ (s.fill c).nv.val ≤ 71 ∧
    (s.fill c).acc.toNat < 2 ^ 71 ∧
    ((s.fill c).consume c).nv.val ≤ 7 ∧
    ((s.fill c).consume c).acc.toNat < 2 ^ ((s.fill c).consume c).nv.val

/-- R232: RBUF is not copied by LOADBR. A write to RBUF[0..CUR) leaves the stream as it was; a write to a byte of
RBUF[CUR..RLEN) changes exactly that byte's bits. -/
def Obligations.StreamReadsLiveRbuf : Prop :=
  ∀ (s : State) (i : Nat) (v : Byte), Memory.wf s.mem = true →
    (i < s.cur.val → (s.setBuf .rbuf i v).stream = s.stream) ∧
    (s.cur.val ≤ i → i < s.rlen.val → (s.setBuf .rbuf i v).stream =
      s.accBits ++ bitStream ((s.slice .rbuf s.cur.val s.rlen.val).set (i - s.cur.val) v))

/-! ### LOOKUP -/

/-- R120: LOOKUP i puts ROM(i), padded with zeros to 16 bytes, into WORD and its length into WLEN, completes with
OK, and changes nothing else: every address outside WORD reads as before. Memory is canonical by `State.Inv`. -/
def Obligations.LookupCopiesRomEntry : Prop :=
  ∀ (i : Nat) (s : State), i < 2048 → Memory.wf s.mem = true →
    ∃ t, exec (.lookup i) s = .next t ∧
      (∀ k, k < 16 → t.buf .word k = (rom i).getD k 0) ∧
      t.wlen.val = (rom i).length ∧ 1 ≤ (rom i).length ∧ (rom i).length ≤ 16 ∧
      (∀ a, ¬ (Buf.word.base ≤ a ∧ a < Buf.word.base + 16) → Memory.read t.mem a = Memory.read s.mem a) ∧
      t = { s with mem := t.mem, wlen := t.wlen, busy := false, done := true, err := .ok, phase := .idle }

/-- The worked example of R120: LOOKUP 0 gives "abandon", seven bytes, then nine zeros. -/
def Obligations.LookupZeroIsAbandon : Prop :=
  ∀ s : State, Memory.wf s.mem = true → ∃ t, exec (.lookup 0) s = .next t ∧
    t.slice .word 0 16 = [0x61, 0x62, 0x61, 0x6E, 0x64, 0x6F, 0x6E, 0, 0, 0, 0, 0, 0, 0, 0, 0] ∧ t.wlen.val = 7

/-! ### GENERATE -/

/-- R122: GENERATE b with b not one of the five lengths raises InvalidEntropySize, asks HC nothing and changes
nothing but what `complete` writes. -/
def Obligations.GenerateRejectsOtherSizes : Prop :=
  ∀ (b : Nat) (s : State), b ∉ [128, 160, 192, 224, 256] → exec (.generate b) s =
    .next { s with busy := false, done := true, err := .invalidEntropySize, phase := .idle }

/-- R123: GENERATE b with b allowed asks HC for the digest of EBUF[0..b/8), captured in HREQ, and waits in HWAIT
with BUSY as it was; nothing else changes. -/
def Obligations.GenerateRequestsDigest : Prop :=
  ∀ (b : Nat) (s : State), b ∈ [128, 160, 192, 224, 256] → exec (.generate b) s =
    .next { s with hreq := some (.h256 (s.slice .ebuf 0 (b / 8))), phase := .hwait }

/-- R129: the state after GENERATE's second step, for the answer whose first byte is d0. -/
def Obligations.GenerateFinalState : Prop :=
  ∀ (s : State) (rest : List Turn) (b : Nat) (d0 : Byte) (ds : ByteString),
    s.phase = .hwait → s.hresp = some (d0 :: ds) → s.turns = .seq :: rest → s.arg = b →
    b ∈ [128, 160, 192, 224, 256] → Memory.wf s.mem = true →
    ∃ t, step s = .next t ∧
      t.rlen.val = b / 8 + 1 ∧ t.cur.val = b / 8 + 1 ∧ t.nv.val = 8 - b / 32 ∧
      t.acc.toNat = d0.toNat &&& (2 ^ (8 - b / 32) - 1) ∧ t.wcount.val = 3 * b / 32 ∧
      (∀ k, t.buf .word k = s.buf .word k ∧ t.buf .ebuf k = s.buf .ebuf k ∧ t.buf .pass k = s.buf .pass k ∧
        t.buf .seed k = s.buf .seed k) ∧
      t = { s with turns := rest, rlen := t.rlen, cur := t.cur, nv := t.nv, acc := t.acc, widx := t.widx,
                   wcount := t.wcount, mem := t.mem, mlen := t.mlen, hresp := none,
                   busy := false, done := true, err := .ok, phase := .idle }

/-- R131: WIDX[j] is bits 11j to 11j + 10 of the stream of the entropy followed by the digest's first byte, the last
index is the last entropy bits followed by the checksum bits, and the entries past the last one are 0. -/
def Obligations.GenerateIndicesClosedForm : Prop :=
  ∀ (s : State) (rest : List Turn) (b : Nat) (d0 : Byte) (ds : ByteString),
    s.phase = .hwait → s.hresp = some (d0 :: ds) → s.turns = .seq :: rest → s.arg = b →
    b ∈ [128, 160, 192, 224, 256] → Memory.wf s.mem = true →
    ∃ t, step s = .next t ∧
      (∀ j, j < 3 * b / 32 → (t.widx.toList.getD j 0).toNat =
        natOfBits (((bitStream (s.slice .ebuf 0 (b / 8) ++ [d0])).drop (11 * j)).take 11)) ∧
      (∀ j, 3 * b / 32 ≤ j → t.widx.toList.getD j 0 = 0) ∧
      (t.widx.toList.getD (3 * b / 32 - 1) 0).toNat =
        ((s.buf .ebuf (b / 8 - 1)).toNat &&& (2 ^ (11 - b / 32) - 1)) <<< (b / 32) |||
          d0.toNat >>> (8 - b / 32)

/-- R126 and R128: GENERATE packs the entropy and the digest's first byte into RBUF[0..n], writes the words of the
indices joined by single spaces into MBUF and their total length, at most 407, into MLEN; every other address reads
as before. -/
def Obligations.GenerateWritesSentence : Prop :=
  ∀ (s : State) (rest : List Turn) (b : Nat) (d0 : Byte) (ds : ByteString),
    s.phase = .hwait → s.hresp = some (d0 :: ds) → s.turns = .seq :: rest → s.arg = b →
    b ∈ [128, 160, 192, 224, 256] → Memory.wf s.mem = true →
    ∃ t, step s = .next t ∧ ∃ text : ByteString,
      text = List.intercalate [0x20] ((t.widx.toList.take (3 * b / 32)).map fun i => rom i.toNat) ∧
      text.length ≤ 407 ∧ t.mlen.toNat = text.length ∧
      t.slice .mbuf 0 text.length = text ∧
      t.slice .rbuf 0 (b / 8 + 1) = s.slice .ebuf 0 (b / 8) ++ [d0] ∧
      ∀ a, ¬ (Buf.rbuf.base ≤ a ∧ a < Buf.rbuf.base + (b / 8 + 1)) →
        ¬ (Buf.mbuf.base ≤ a ∧ a < Buf.mbuf.base + text.length) → Memory.read t.mem a = Memory.read s.mem a

/-- R130: the W reads of GENERATE need exactly b + cs bits and every one of them finds its bytes in the Packed
Buffer. -/
def Obligations.GenerateNeverRunsShort : Prop :=
  ∀ (s : State) (e : ByteString) (d0 : Byte) (b : Nat), b ∈ [128, 160, 192, 224, 256] → e.length = b / 8 →
    11 * (3 * b / 32) = b + b / 32 ∧ b + b / 32 ≤ 8 * (e.length + 1) ∧
    ∀ j, j < 3 * b / 32 →
      (State.read11s j (s.pack e d0)).2.cur.val + (11 - (State.read11s j (s.pack e d0)).2.nv.val + 7) / 8 ≤
        (State.read11s j (s.pack e d0)).2.rlen.val

/-- R132: two runs of GENERATE b that agree on EBUF[0..b/8) end with the same indices, word count and mnemonic,
whatever else their states held. -/
def Obligations.GenerateIsDeterministic : Prop :=
  ∀ (s s' : State) (rest rest' : List Turn) (b : Nat), s.Inv → s'.Inv →
    s.phase = .decode → s'.phase = .decode →
    decode s.cmdl = .command (.generate b) → decode s'.cmdl = .command (.generate b) →
    b ∈ [128, 160, 192, 224, 256] → s.slice .ebuf 0 (b / 8) = s'.slice .ebuf 0 (b / 8) →
    s.turns = .seq :: .hc :: .seq :: rest → s'.turns = .seq :: .hc :: .seq :: rest' →
    ∃ t t', s.run 3 = .next t ∧ s'.run 3 = .next t' ∧
      t.widx = t'.widx ∧ t.wcount = t'.wcount ∧ t.mlen = t'.mlen ∧
      t.slice .mbuf 0 t.mlen.toNat = t'.slice .mbuf 0 t'.mlen.toNat

/-- 95_test_vectors.md X1: 16 zero bytes give the sentence "abandon" eleven times, then "about", 93 bytes. -/
def Obligations.ZeroEntropyGivesKnownMnemonic : Prop :=
  ∀ (s : State) (rest : List Turn), s.Inv → s.phase = .decode → s.cmdl = 0x00008004 →
    s.slice .ebuf 0 16 = List.replicate 16 0 → s.turns = .seq :: .hc :: .seq :: rest →
    ∃ t, s.run 3 = .next t ∧ t.err = .ok ∧ t.busy = false ∧ t.wcount.val = 12 ∧ t.mlen = 93 ∧
      t.slice .mbuf 0 93 =
        (List.replicate 11 [0x61, 0x62, 0x61, 0x6E, 0x64, 0x6F, 0x6E, 0x20]).flatten ++ [0x61, 0x62, 0x6F, 0x75, 0x74]

/-! ### DERIVE -/

/-- R151: DERIVE raises ParamRange, before any request, when MLEN exceeds 512 or PLEN exceeds 256. -/
def Obligations.DeriveRejectsLengths : Prop :=
  ∀ s : State, 512 < s.mlen.toNat ∨ 256 < s.plen.toNat → exec .derive s =
    .next { s with busy := false, done := true, err := .paramRange, phase := .idle }

/-- R152: with lengths in range DERIVE asks HC for the key of MBUF[0..MLEN) with the salt "mnemonic" followed by
PASS[0..PLEN), 2048 iterations and 64 bytes, captured in HREQ, and waits in KWAIT; nothing else changes. -/
def Obligations.DeriveRequestsKey : Prop :=
  ∀ s : State, s.mlen.toNat ≤ 512 → s.plen.toNat ≤ 256 → exec .derive s =
    .next { s with
      hreq := some (.kdf (s.slice .mbuf 0 s.mlen.toNat)
        ([0x6D, 0x6E, 0x65, 0x6D, 0x6F, 0x6E, 0x69, 0x63] ++ s.slice .pass 0 s.plen.toNat) 2048 64)
      phase := .kwait }

/-- R153: SEED takes the 64 bytes of the answer in one step, the answer is consumed and the command completes with
OK; every address outside SEED reads as before. -/
def Obligations.DeriveStoresSeed : Prop :=
  ∀ (s : State) (rest : List Turn) (d : ByteString), s.phase = .kwait → s.hresp = some d → d.length = 64 →
    s.turns = .seq :: rest → Memory.wf s.mem = true →
    ∃ t, step s = .next t ∧ t.slice .seed 0 64 = d ∧
      (∀ a, ¬ (Buf.seed.base ≤ a ∧ a < Buf.seed.base + 64) → Memory.read t.mem a = Memory.read s.mem a) ∧
      t = { s with turns := rest, mem := t.mem, hresp := none,
                   busy := false, done := true, err := .ok, phase := .idle }

/-- R155: after DERIVE's two SEQ steps around HC's step, SEED is the KDF of the mnemonic and the salt, so the same
inputs give the same seed; MBUF, PASS and their lengths are as they were. -/
def Obligations.SeedIsKdfOfInputs : Prop :=
  ∀ (s : State) (rest : List Turn), s.Inv → s.phase = .decode → decode s.cmdl = .command .derive →
    s.mlen.toNat ≤ 512 → s.plen.toNat ≤ 256 → s.turns = .seq :: .hc :: .seq :: rest →
    ∃ t, s.run 3 = .next t ∧ t.err = .ok ∧ t.busy = false ∧ t.mlen = s.mlen ∧ t.plen = s.plen ∧
      (∀ k, t.buf .mbuf k = s.buf .mbuf k ∧ t.buf .pass k = s.buf .pass k) ∧
      t.slice .seed 0 64 = (Config.kdf (s.slice .mbuf 0 s.mlen.toNat)
        ([0x6D, 0x6E, 0x65, 0x6D, 0x6F, 0x6E, 0x69, 0x63] ++ s.slice .pass 0 s.plen.toNat) 2048 64).toList

/-! ### ZEROIZE -/

/-- R170: ZEROIZE clears every data register and every byte of the six buffers and completes with OK; IE, OVR and
CMDL, and everything else, stay. -/
def Obligations.ZeroizeClearsData : Prop :=
  ∀ s : State, ∃ t, exec .zeroize s = .next t ∧
    (∀ b k, t.buf b k = 0) ∧ (∀ a, Memory.read t.mem a = 0) ∧
    (∀ j, t.widx.toList.getD j 0 = 0) ∧
    t = { s with result := 0, rlen := 0, cur := 0, nv := 0, acc := 0, mlen := 0, plen := 0, wcount := 0, wlen := 0,
                 widx := t.widx, mem := t.mem, busy := false, done := true, err := .ok, phase := .idle }

/-! ### Exceptions and completion -/

/-- R182: a command that completes with an error changed nothing but what `complete` writes, and a command that
reached HWAIT or KWAIT ends with OK. -/
def Obligations.ExceptionsLeaveNoPartialEffect : Prop :=
  (∀ (i : Instr) (s t : State), exec i s = .next t → t.phase = .idle → t.err ≠ .ok →
    t = { s with busy := false, done := true, err := t.err, phase := .idle }) ∧
  (∀ (s t : State) (rest : List Turn), s.phase = .hwait ∨ s.phase = .kwait → s.hresp.isSome = true →
    s.turns = .seq :: rest → step s = .next t → t.err = .ok ∧ t.phase = .idle ∧ t.busy = false ∧ t.done = true)

/-- R187: every command's DECODE step completes it (BUSY clear, DONE set, IDLE) or leaves it waiting on a request to
HC with BUSY as it was (R186); it never stops the machine. -/
def Obligations.CommandsCompleteOrWait : Prop :=
  ∀ (i : Instr) (s : State), ∃ t, exec i s = .next t ∧
    ((t.busy = false ∧ t.done = true ∧ t.phase = .idle ∧ t.hreq = s.hreq) ∨
     (t.busy = s.busy ∧ t.done = s.done ∧ t.err = s.err ∧ t.hreq.isSome = true ∧
      (t.phase = .hwait ∨ t.phase = .kwait)))

/-- ERR "keeps the previous command's code while a new command is BUSY", no HOST or HC step writes it but a reset,
and from a state that meets the invariant a step that changes it resets the block or completes a command: BUSY goes
from 1 to 0 with DONE set and PHASE IDLE (R24). -/
def Obligations.ErrWrittenOnlyByComplete : Prop :=
  (∀ s t : State, step s = .next t → t.busy = true → t.err = s.err) ∧
  (∀ (s : State) (turn : Turn) (rest : List Turn), s.turns = turn :: rest → turn ≠ .seq → turn.resets = false →
    ∃ t, step s = .next t ∧ t.err = s.err) ∧
  (∀ s t : State, s.Inv → step s = .next t → t.err ≠ s.err →
    (∃ turn ∈ s.turns.head?, turn.resets = true) ∨
    (s.seqToMove ∧ s.busy = true ∧ t.busy = false ∧ t.done = true ∧ t.phase = .idle))

/-- Once BUSY = 0, no later change comes from the completed command: a turn of SEQ or of HC changes nothing
(R74, R186, R201). -/
def Obligations.NothingMovesAfterCompletion : Prop :=
  ∀ (s : State) (rest : List Turn), s.Inv → s.busy = false → s.turns = .seq :: rest ∨ s.turns = .hc :: rest →
    step s = .next { s with turns := rest }

/-- IRQ is IE AND DONE (R45), and rises and falls as R188 says: at a completion with IE = 1, when the host sets
IE with DONE = 1; at a clear of DONE or of IE, an accepted CMD write, a reset. -/
def Obligations.IrqFollowsEnableAndDone : Prop :=
  (∀ s : State, s.irq = (s.ie && s.done)) ∧
  (∀ (s : State) (code : ErrCode), (s.complete code).irq = s.ie) ∧
  (∀ s : State, (s.busWrite 0x004 32 0x00000001).irq = s.done) ∧
  (∀ (s : State) (v : Word), v.getLsbD 1 = true → (s.busWrite 0x008 32 v).irq = false) ∧
  (∀ (s : State) (v : Word), v.getLsbD 0 = false → (s.busWrite 0x004 32 v).irq = false) ∧
  (∀ (s : State) (v : Word), s.phase = .idle → (s.busWrite 0x00C 32 v).irq = false) ∧
  (∀ s : State, s.resetAll.irq = false)

/-! ### The hash core -/

/-- R201: HC answers a pending request from its captured operands alone, 32 bytes for H256 and dkLen bytes for KDF,
and consumes the request; with none pending its turn changes nothing. -/
def Obligations.HashCoreAnswersRequest : Prop :=
  ∀ (s : State) (rest : List Turn), s.turns = .hc :: rest →
    (∀ m, s.hreq = some (.h256 m) → step s =
      .next { s with turns := rest, hreq := none, hresp := some (Config.h256 m).toList }) ∧
    (∀ p q c n, s.hreq = some (.kdf p q c n) → step s =
      .next { s with turns := rest, hreq := none, hresp := some (Config.kdf p q c n).toList }) ∧
    (s.hreq = none → step s = .next { s with turns := rest }) ∧
    (∀ m, (Config.h256 m).toList.length = 32) ∧ (∀ p q c n, (Config.kdf p q c n).toList.length = n)

/-- R237: under the premise that HC answers, every accepted command ends: if the planned turns hold, in this order
and with any other steps between them, one of SEQ, one of HC and one of SEQ, then BUSY is 0 at some point of the
plan. A reset among the turns ends the command too (R221). (The plan `turns` is the model's own, log entry 2.) -/
def Obligations.CommandEndsIfSeqAndHcGetTurns : Prop :=
  ∀ s : State, s.Inv → List.Sublist [.seq, .hc, .seq] s.turns →
    ∃ k t, k ≤ s.turns.length ∧ s.run k = .next t ∧ t.busy = false

/-- R203: if HC never answers, GENERATE or DERIVE waits for ever, whatever the host does short of a reset.
(`hcResponds` and `turns` are the model's own, log entries 2 and 3.) -/
def Obligations.WaitsForeverIfHcIsSilent : Prop :=
  ∀ s : State, s.Inv → s.phase = .hwait ∨ s.phase = .kwait → s.hresp = none → s.hcResponds = false →
    (∀ turn ∈ s.turns, turn ≠ .hc ∧ turn.resets = false) →
    ∀ k, ∃ t, s.run k = .next t ∧ t.busy = true ∧ t.phase = s.phase ∧ t.cmdl = s.cmdl

/-! ### The host's window -/

/-- R22: ID reads 0x0B390007 in every state, PART 0x0B39, MAJOR 0x00, EDITION 0x07, and a write to it is ignored. -/
def Obligations.IdIsConstant : Prop :=
  (∀ s : State, s.busRead 0x000 32 = { s with resp := .data 0x0B390007 }) ∧
  (∀ (s : State) (v : Word), s.busWrite 0x000 32 v = { s with resp := .accepted }) ∧
  (0x0B390007#32).extractLsb' 16 16 = 0x0B39#16 ∧ (0x0B390007#32).extractLsb' 8 8 = 0x00#8 ∧
  (0x0B390007#32).extractLsb' 0 8 = 0x07#8

/-- R23 and R221: CTRL reads IE; a write sets IE from bit 0, and with bit 1 set it resets every piece of the spec's
state in that same step, in any phase, a running command being abandoned without `complete`. (That the model's own
fields stay, and that `resp` notes the write as accepted, is the model's choice, log entries 2 to 5.) -/
def Obligations.CtrlWriteEnablesOrResets : Prop :=
  (∀ s : State, s.busRead 0x004 32 = { s with resp := .data (if s.ie then 1 else 0) }) ∧
  (∀ (s : State) (v : Word), v.getLsbD 1 = false →
    s.busWrite 0x004 32 v = { s with ie := v.getLsbD 0, resp := .accepted }) ∧
  (∀ (s : State) (v : Word), v.getLsbD 1 = true → s.busWrite 0x004 32 v =
    { State.reset with turns := s.turns, hcResponds := s.hcResponds, draws := s.draws, resp := .accepted })

/-- R25: a write to STATUS clears DONE and OVR where it has a 1 and ignores every other bit, in every phase. -/
def Obligations.StatusWriteClearsDoneAndOvr : Prop :=
  ∀ (s : State) (v : Word), s.busWrite 0x008 32 v =
    { s with done := if v.getLsbD 1 then false else s.done, ovr := if v.getLsbD 2 then false else s.ovr,
             resp := .accepted }

/-- R26: in IDLE a write to CMD latches the word and starts it; otherwise it sets OVR and nothing else; a read
returns CMDL in every phase; CMDL is 0 after reset. -/
def Obligations.CmdWriteStartsCommand : Prop :=
  (∀ (s : State) (v : Word), s.phase = .idle → s.busWrite 0x00C 32 v =
    { s with cmdl := v, busy := true, done := false, phase := .decode, resp := .accepted }) ∧
  (∀ (s : State) (v : Word), s.phase ≠ .idle → s.busWrite 0x00C 32 v = { s with ovr := true, resp := .accepted }) ∧
  (∀ s : State, s.busRead 0x00C 32 = { s with resp := .data s.cmdl }) ∧ State.reset.cmdl = 0

/-- R31, R32: with BUSY = 0, MLEN and PLEN take the low 16 bits of a write and read back zero-extended. -/
def Obligations.LengthRegistersHoldSixteenBits : Prop :=
  ∀ (s : State) (v : Word), s.busy = false →
    s.busWrite 0x028 32 v = { s with mlen := v.extractLsb' 0 16, resp := .accepted } ∧
    s.busWrite 0x02C 32 v = { s with plen := v.extractLsb' 0 16, resp := .accepted } ∧
    s.busRead 0x028 32 = { s with resp := .data (BitVec.ofNat 32 s.mlen.toNat) } ∧
    s.busRead 0x02C 32 = { s with resp := .data (BitVec.ofNat 32 s.plen.toNat) }

/-- R62: inside the window an access that is not 32 bits wide or not at a multiple of 4 gets a bus error and changes
no state; a bus address outside BASE to BASE + 0xFFF is no access at all. (That an access of any width is judged by
the address it starts at, one that starts below BASE and runs into the window included, is the model's choice, log
entry 7; `resp` is the model's own, log entry 5.) -/
def Obligations.BadAccessesChangeNothing : Prop :=
  (∀ (s : State) (off : Int) (width : Nat) (v : Word), 0 ≤ off → off < 4096 → width ≠ 32 ∨ off % 4 ≠ 0 →
    s.busRead off width = { s with resp := .busError } ∧ s.busWrite off width v = { s with resp := .busError }) ∧
  (∀ (s : State) (rest : List Turn) (addr width : Nat) (v : Word),
    addr < Config.base ∨ Config.base + 4096 ≤ addr →
    s.turns = readAt addr width :: rest ∨ s.turns = writeAt addr width v :: rest →
    step s = .next { s with turns := rest })

/-- R63: with BUSY = 0 the word at a buffer's offset holds four of its bytes, the lower-numbered in the lower bits;
a byte at or above the size reads 0 and ignores the write; a write touches no other byte and nothing else. -/
def Obligations.BufferLanesAreLittleEndian : Prop :=
  ∀ (s : State) (b : Buf) (i : Nat) (v : Word), s.busy = false → Memory.wf s.mem = true → i % 4 = 0 → i < b.size →
    (∃ w : Word, s.busRead ((b.base + i : Nat) : Int) 32 = { s with resp := .data w } ∧
      w.toNat = (s.buf b i).toNat + (s.buf b (i + 1)).toNat * 2 ^ 8 + (s.buf b (i + 2)).toNat * 2 ^ 16 +
        (s.buf b (i + 3)).toNat * 2 ^ 24) ∧
    (∀ k, b.size ≤ k → s.buf b k = 0) ∧
    (b ∈ [.ebuf, .rbuf, .pass, .mbuf] → ∃ t, s.busWrite ((b.base + i : Nat) : Int) 32 v = t ∧
      (∀ k, k < 4 → i + k < b.size → (t.buf b (i + k)).toNat = v.toNat / 2 ^ (8 * k) % 256) ∧
      (∀ a, ¬ (b.base + i ≤ a ∧ a < b.base + i + 4 ∧ a < b.base + b.size) →
        Memory.read t.mem a = Memory.read s.mem a) ∧
      t = { s with mem := t.mem, resp := .accepted })

/-- R64: reserved offsets read 0 and ignore writes in every phase, and writes to read-only registers and buffers are
ignored, with no OVR. -/
def Obligations.ReservedAndReadOnlyIgnoreWrites : Prop :=
  ∀ (s : State) (off : Nat) (v : Word), off % 4 = 0 →
    ((0x038 ≤ off ∧ off < 0x100) ∨ (0x160 ≤ off ∧ off < 0x200) ∨ (0x220 ≤ off ∧ off < 0x240) ∨
      (0x264 ≤ off ∧ off < 0x280) ∨ (0x290 ≤ off ∧ off < 0x300) ∨ (0x340 ≤ off ∧ off < 0x400) ∨
      (0x500 ≤ off ∧ off < 0x800) ∨ (0xA00 ≤ off ∧ off < 0x1000) →
      s.busRead (off : Int) 32 = { s with resp := .data 0 } ∧
      s.busWrite (off : Int) 32 v = { s with resp := .accepted }) ∧
    (off = 0x000 ∨ (0x010 ≤ off ∧ off < 0x028) ∨ off = 0x030 ∨ off = 0x034 ∨ (0x100 ≤ off ∧ off < 0x160) ∨
      (0x280 ≤ off ∧ off < 0x290) ∨ (0x300 ≤ off ∧ off < 0x340) →
      s.busWrite (off : Int) 32 v = { s with resp := .accepted })

/-- R65: while BUSY = 1 a write to CMD, MLEN, PLEN, EBUF, RBUF, PASS or MBUF changes nothing but OVR, which becomes
1. (BUSY = 1 and PHASE not IDLE are the same thing by `State.Inv`.) -/
def Obligations.WritesWhileBusyAreLost : Prop :=
  ∀ (s : State) (off : Nat) (v : Word), s.busy = true → s.phase ≠ .idle → off % 4 = 0 →
    off = 0x00C ∨ off = 0x028 ∨ off = 0x02C ∨ (0x200 ≤ off ∧ off < 0x220) ∨ (0x240 ≤ off ∧ off < 0x264) ∨
      (0x400 ≤ off ∧ off < 0x500) ∨ (0x800 ≤ off ∧ off < 0xA00) →
    s.busWrite (off : Int) 32 v = { s with ovr := true, resp := .accepted }

/-- R66: while BUSY = 1 what a read returns is the same for any two states that agree on CTRL, STATUS and CMD: no
data register or buffer can be learnt. (An unspecified read is a free value, log entry 4; this holds for every
value of `draws`.) -/
def Obligations.ReadsWhileBusyRevealNoData : Prop :=
  ∀ (s s' : State) (off : Int) (width : Nat), s.busy = true → s'.busy = true → s.ie = s'.ie → s.done = s'.done →
    s.ovr = s'.ovr → s.err = s'.err → s.phase = s'.phase → s.cmdl = s'.cmdl → s.resp = s'.resp →
    s.draws = s'.draws → (s.busRead off width).resp = (s'.busRead off width).resp

/-- R67: no read has a side effect on the spec's state; `resp` and `draws` are the model's own (log entries 4
and 5), and with BUSY = 0 a read draws nothing. -/
def Obligations.ReadsHaveNoSideEffect : Prop :=
  ∀ (s : State) (off : Int) (width : Nat),
    s.busRead off width = { s with resp := (s.busRead off width).resp, draws := (s.busRead off width).draws } ∧
    (s.busy = false → (s.busRead off width).draws = s.draws)

/-- R65, R66, R75: while a command runs, no host access short of a reset changes its inputs, its results, its request
or its progress: only IE, DONE, OVR and the model's own fields can change. -/
def Obligations.HostCannotDisturbRunningCommand : Prop :=
  ∀ (s : State) (turn : Turn) (rest : List Turn), s.busy = true → s.phase ≠ .idle → s.turns = turn :: rest →
    turn.isHost = true → turn.resets = false →
    ∃ t, step s = .next t ∧ t = { s with ie := t.ie, done := t.done, ovr := t.ovr, resp := t.resp,
                                         draws := t.draws, turns := rest }

/-- What the host reads at the offsets of R20: STATUS (R24) in every phase, and with BUSY = 0 RESULT low word first
(R27), BR_STATE (R28), ACC (R29, R70), WCOUNT (R33), WLEN (R34) and the 24 entries of WIDX (R35). -/
def Obligations.RegisterLayouts : Prop :=
  ∀ s : State,
    (∃ w : Word, s.busRead 0x008 32 = { s with resp := .data w } ∧
      w.getLsbD 0 = s.busy ∧ w.getLsbD 1 = s.done ∧ w.getLsbD 2 = s.ovr ∧ w.getLsbD 3 = false ∧
      w.toNat / 16 % 16 = s.err.code ∧ w.toNat / 256 = s.phase.code) ∧
    (s.busy = false →
      (∃ lo hi : Word, s.busRead 0x010 32 = { s with resp := .data lo } ∧
        s.busRead 0x014 32 = { s with resp := .data hi } ∧ hi ++ lo = s.result) ∧
      (∃ w : Word, s.busRead 0x018 32 = { s with resp := .data w } ∧ w.toNat % 256 = s.rlen.val ∧
        w.toNat / 256 % 256 = s.cur.val ∧ w.toNat / 65536 = s.nv.val) ∧
      (∃ a0 a1 a2 : Word, s.busRead 0x01C 32 = { s with resp := .data a0 } ∧
        s.busRead 0x020 32 = { s with resp := .data a1 } ∧ s.busRead 0x024 32 = { s with resp := .data a2 } ∧
        s.acc.toNat = a0.toNat + a1.toNat * 2 ^ 32 + a2.toNat * 2 ^ 64) ∧
      (∃ w : Word, s.busRead 0x030 32 = { s with resp := .data w } ∧ w.toNat = s.wcount.val) ∧
      (∃ w : Word, s.busRead 0x034 32 = { s with resp := .data w } ∧ w.toNat = s.wlen.val) ∧
      (∀ j : Fin 24, ∃ w : Word, s.busRead ((0x100 + 4 * j.val : Nat) : Int) 32 = { s with resp := .data w } ∧
        w.toNat = s.widx[j].toNat))

/-! ### Who writes what -/

/-- RESULT is written only by a successful RDBITS, ZEROIZE and reset (R27), SEED only by DERIVE's last step, ZEROIZE
and reset (R39), EBUF only by a host write of the word that holds the byte, with BUSY = 0, ZEROIZE and reset (R36);
the commands write in SEQ's steps alone (R186). -/
def Obligations.OnlyListedWritersWrite : Prop :=
  ∀ s t : State, step s = .next t →
    (t.result ≠ s.result → (∃ turn ∈ s.turns.head?, turn.resets = true) ∨
      (s.seqToMove ∧ s.phase = .decode ∧ t.err = .ok ∧
        ((∃ c, decode s.cmdl = .command (.rdbits c)) ∨ decode s.cmdl = .command .zeroize))) ∧
    ((∃ k, t.buf .seed k ≠ s.buf .seed k) → (∃ turn ∈ s.turns.head?, turn.resets = true) ∨
      (s.seqToMove ∧ s.phase = .kwait ∧ s.hresp.isSome = true) ∨
      (s.seqToMove ∧ s.phase = .decode ∧ decode s.cmdl = .command .zeroize)) ∧
    (∀ k, t.buf .ebuf k ≠ s.buf .ebuf k → (∃ turn ∈ s.turns.head?, turn.resets = true) ∨
      (s.busy = false ∧ ∃ off v, s.turns.head? = some (.write off 32 v) ∧ 0x200 ≤ off ∧ off < 0x220 ∧
        off ≤ 0x200 + (k : Int) ∧ 0x200 + (k : Int) < off + 4) ∨
      (s.seqToMove ∧ s.phase = .decode ∧ decode s.cmdl = .command .zeroize))

/-! ### Reset and the invariant -/

/-- R47: after reset every word of the window reads 0 but ID, and every piece of the spec's state has its reset
value. -/
def Obligations.ResetValues : Prop :=
  (∀ off : Nat, off < 4096 → off % 4 = 0 →
    (State.reset.busRead (off : Int) 32).resp = .data (if off = 0 then 0x0B390007 else 0)) ∧
  (∀ b k, State.reset.buf b k = 0) ∧
  State.reset.ie = false ∧ State.reset.busy = false ∧ State.reset.done = false ∧ State.reset.ovr = false ∧
  State.reset.err = .ok ∧ State.reset.phase = .idle ∧ State.reset.cmdl = 0 ∧ State.reset.result = 0 ∧
  State.reset.rlen = 0 ∧ State.reset.cur = 0 ∧ State.reset.nv = 0 ∧ State.reset.acc = 0 ∧
  State.reset.mlen = 0 ∧ State.reset.plen = 0 ∧ State.reset.wcount = 0 ∧ State.reset.wlen = 0 ∧
  State.reset.widx = Vector.replicate 24 0 ∧ State.reset.hreq = none ∧ State.reset.hresp = none ∧
  State.reset.irq = false

/-- R220, R222: the reset input gives the spec's state its reset values in one step, in any state, and the next
CMD write is accepted; the model's own fields stay (log entries 2 to 5). -/
def Obligations.HardwareResetStep : Prop :=
  ∀ (s : State) (rest : List Turn), s.turns = .reset :: rest → ∃ t, step s = .next t ∧
    t = { State.reset with turns := rest, hcResponds := s.hcResponds, resp := s.resp, draws := s.draws } ∧
    ∀ v : Word, (t.busWrite 0x00C 32 v).cmdl = v ∧ (t.busWrite 0x00C 32 v).phase = .decode

/-- The invariant holds right after reset. -/
def Obligations.InvAtReset : Prop := State.reset.Inv

/-- Every step keeps the invariant: memory canonical and within the buffers, BUSY = 1 exactly when PHASE is not IDLE
(R43), CUR ≤ RLEN, NV ≤ 7 and ACC < 2^NV (R28, R29, R105), HREQ and HRESP empty in IDLE and DECODE (R186), and in
HWAIT and KWAIT exactly the request of the latched command or its answer (R200, R201). -/
def Obligations.EveryStepKeepsInv : Prop :=
  ∀ s t : State, s.Inv → step s = .next t → t.Inv
end

