-- ==== Sys2Proof/Laws/Memory.lean ====
section
/-! SUPPORT. The laws of the buffers' memory: read after write, and that every write keeps the canonical form. -/

namespace Sys2Proof.Machine

@[simp] theorem Memory.read_nil (a : Nat) : Memory.read [] a = 0 := rfl

theorem Memory.wf_nil : Memory.wf [] = true := rfl

theorem Memory.wfFrom_cons {lo k : Nat} {b : Byte} {m : Memory} :
    Memory.wfFrom lo ((k, b) :: m) = true ↔ lo ≤ k ∧ b ≠ 0 ∧ Memory.wfFrom (k + 1) m = true := by
  simp [Memory.wfFrom, and_assoc]

theorem Memory.wfFrom_mono {lo lo' : Nat} {m : Memory} (h : Memory.wfFrom lo m = true) (hle : lo' ≤ lo) :
    Memory.wfFrom lo' m = true := by
  cases m with
  | nil => rfl
  | cons c m =>
    obtain ⟨hk, hb, hm⟩ := Memory.wfFrom_cons.1 h
    exact Memory.wfFrom_cons.2 ⟨hle.trans hk, hb, hm⟩

/-- Below the least address it may list, a canonical memory lists nothing. -/
theorem Memory.read_below {m : Memory} : ∀ {lo a : Nat}, Memory.wfFrom lo m = true → a < lo → Memory.read m a = 0 := by
  induction m with
  | nil => intros; rfl
  | cons c m ih =>
    intro lo a h ha
    obtain ⟨hk, -, hm⟩ := Memory.wfFrom_cons.1 h
    have hne : c.1 ≠ a := by omega
    simpa [Memory.read, hne] using ih hm (by omega)

theorem Memory.read_write_other (m : Memory) {a b : Nat} (v : Byte) (h : b ≠ a) :
    Memory.read (Memory.write m a v) b = Memory.read m b := by
  induction m with
  | nil =>
    simp only [Memory.write]
    split_ifs <;> simp [Memory.read, h.symm]
  | cons c m ih =>
    obtain ⟨k, x⟩ := c
    simp only [Memory.write]
    split_ifs with h1 h2 h3 h4
    · rfl
    · simp [Memory.read, h.symm]
    · simp [Memory.read, show ¬ k = b by omega]
    · simp [Memory.read, h.symm, show ¬ k = b by omega]
    · simp only [Memory.read, ih]

theorem Memory.read_write_same {m : Memory} {lo a : Nat} (v : Byte) (h : Memory.wfFrom lo m = true) :
    Memory.read (Memory.write m a v) a = v := by
  induction m generalizing lo with
  | nil =>
    simp only [Memory.write]
    split_ifs with hv
    · exact hv.symm
    · simp [Memory.read]
  | cons c m ih =>
    obtain ⟨k, x⟩ := c
    obtain ⟨hk, -, hm⟩ := Memory.wfFrom_cons.1 h
    simp only [Memory.write]
    split_ifs with h1 h2 h3 h4
    · have := Memory.read_below hm (a := a) (by omega)
      simp [Memory.read, h2, this, show ¬ k = a by omega]
    · simp [Memory.read]
    · have := Memory.read_below hm (a := a) (by omega)
      rw [this, h4]
    · simp [Memory.read]
    · simp [Memory.read, show ¬ k = a by omega, ih hm]

theorem Memory.wfFrom_write {m : Memory} {lo a : Nat} (v : Byte) (h : Memory.wfFrom lo m = true) (ha : lo ≤ a) :
    Memory.wfFrom lo (Memory.write m a v) = true := by
  induction m generalizing lo with
  | nil =>
    simp only [Memory.write]
    split_ifs with hv
    · rfl
    · exact Memory.wfFrom_cons.2 ⟨ha, hv, rfl⟩
  | cons c m ih =>
    obtain ⟨k, x⟩ := c
    obtain ⟨hk, hx, hm⟩ := Memory.wfFrom_cons.1 h
    simp only [Memory.write]
    split_ifs with h1 h2 h3 h4
    · exact h
    · exact Memory.wfFrom_cons.2 ⟨ha, h2, Memory.wfFrom_cons.2 ⟨h1, hx, hm⟩⟩
    · exact Memory.wfFrom_mono hm (by omega)
    · exact Memory.wfFrom_cons.2 ⟨ha, h4, Memory.wfFrom_mono hm (by omega)⟩
    · exact Memory.wfFrom_cons.2 ⟨hk, hx, ih hm (by omega)⟩

/-- Every write keeps the canonical form. -/
theorem Memory.wf_write {m : Memory} (a : Nat) (v : Byte) (h : Memory.wf m = true) :
    Memory.wf (Memory.write m a v) = true :=
  Memory.wfFrom_write v h (Nat.zero_le a)

/-- A write lists no address but the old ones and its own. -/
theorem Memory.mem_write {m : Memory} {a : Nat} {v : Byte} {c : Host.Cell} (h : c ∈ Memory.write m a v) :
    c.1 = a ∨ c ∈ m := by
  induction m with
  | nil =>
    simp only [Memory.write] at h
    split_ifs at h with hv
    · simp at h
    · exact .inl (by rw [List.mem_singleton.1 h])
  | cons d m ih =>
    simp only [Memory.write] at h
    split_ifs at h with h1 h2 h3 h4 <;> simp only [List.mem_cons] at h ⊢
    · exact .inr h
    · rcases h with rfl | h
      · exact .inl rfl
      · exact .inr h
    · exact .inr (.inr h)
    · rcases h with rfl | h
      · exact .inl rfl
      · exact .inr (.inr h)
    · rcases h with h | h
      · exact .inr (.inl h)
      · exact (ih h).imp id .inr

/-- Canonical memories that read the same everywhere are the same memory. -/
theorem Memory.ext_of_wf {m m' : Memory} : ∀ {lo : Nat}, Memory.wfFrom lo m = true → Memory.wfFrom lo m' = true →
    (∀ a, Memory.read m a = Memory.read m' a) → m = m' := by
  induction m generalizing m' with
  | nil =>
    intro lo _ h' hr
    cases m' with
    | nil => rfl
    | cons c m' =>
      obtain ⟨-, hb, -⟩ := Memory.wfFrom_cons.1 h'
      exact absurd (by simpa [Memory.read] using (hr c.1).symm) hb
  | cons c m ih =>
    intro lo h h' hr
    obtain ⟨k, x⟩ := c
    obtain ⟨hk, hx, hm⟩ := Memory.wfFrom_cons.1 h
    cases m' with
    | nil => exact absurd (by simpa [Memory.read] using hr k) hx
    | cons c' m' =>
      obtain ⟨k', x'⟩ := c'
      obtain ⟨hk', hx', hm'⟩ := Memory.wfFrom_cons.1 h'
      have hkk : k = k' := by
        rcases Nat.lt_trichotomy k k' with hlt | heq | hlt
        · have := hr k
          rw [Memory.read_below (Memory.wfFrom_cons.2 ⟨Nat.le_refl k', hx', hm'⟩) hlt] at this
          exact absurd (by simpa [Memory.read] using this) hx
        · exact heq
        · have := hr k'
          rw [Memory.read_below (Memory.wfFrom_cons.2 ⟨Nat.le_refl k, hx, hm⟩) hlt] at this
          exact absurd (by simpa [Memory.read] using this.symm) hx'
      subst hkk
      have hxx : x = x' := by simpa [Memory.read] using hr k
      subst hxx
      refine congrArg _ (ih hm hm' fun a => ?_)
      by_cases ha : k = a
      · subst ha
        rw [Memory.read_below hm (Nat.lt_succ_self _), Memory.read_below hm' (Nat.lt_succ_self _)]
      · simpa [Memory.read, ha] using hr a

end Sys2Proof.Machine
end

