-- ==== Sys2Proof/Laws/State.lean ====
section
/-! SUPPORT. What each named update of State leaves in each field, one lemma a field. -/

namespace Sys2Proof.Machine

variable (s : State)

/-! ### complete and raise (R11, R187) -/

@[simp] theorem State.complete_ie (c : ErrCode) : (s.complete c).ie = s.ie := rfl
@[simp] theorem State.complete_busy (c : ErrCode) : (s.complete c).busy = false := rfl
@[simp] theorem State.complete_done (c : ErrCode) : (s.complete c).done = true := rfl
@[simp] theorem State.complete_ovr (c : ErrCode) : (s.complete c).ovr = s.ovr := rfl
@[simp] theorem State.complete_err (c : ErrCode) : (s.complete c).err = c := rfl
@[simp] theorem State.complete_phase (c : ErrCode) : (s.complete c).phase = .idle := rfl
@[simp] theorem State.complete_cmdl (c : ErrCode) : (s.complete c).cmdl = s.cmdl := rfl
@[simp] theorem State.complete_result (c : ErrCode) : (s.complete c).result = s.result := rfl
@[simp] theorem State.complete_rlen (c : ErrCode) : (s.complete c).rlen = s.rlen := rfl
@[simp] theorem State.complete_cur (c : ErrCode) : (s.complete c).cur = s.cur := rfl
@[simp] theorem State.complete_nv (c : ErrCode) : (s.complete c).nv = s.nv := rfl
@[simp] theorem State.complete_acc (c : ErrCode) : (s.complete c).acc = s.acc := rfl
@[simp] theorem State.complete_mlen (c : ErrCode) : (s.complete c).mlen = s.mlen := rfl
@[simp] theorem State.complete_plen (c : ErrCode) : (s.complete c).plen = s.plen := rfl
@[simp] theorem State.complete_wcount (c : ErrCode) : (s.complete c).wcount = s.wcount := rfl
@[simp] theorem State.complete_wlen (c : ErrCode) : (s.complete c).wlen = s.wlen := rfl
@[simp] theorem State.complete_widx (c : ErrCode) : (s.complete c).widx = s.widx := rfl
@[simp] theorem State.complete_mem (c : ErrCode) : (s.complete c).mem = s.mem := rfl
@[simp] theorem State.complete_hreq (c : ErrCode) : (s.complete c).hreq = s.hreq := rfl
@[simp] theorem State.complete_hresp (c : ErrCode) : (s.complete c).hresp = s.hresp := rfl
@[simp] theorem State.complete_turns (c : ErrCode) : (s.complete c).turns = s.turns := rfl
@[simp] theorem State.complete_hcResponds (c : ErrCode) : (s.complete c).hcResponds = s.hcResponds := rfl
@[simp] theorem State.complete_resp (c : ErrCode) : (s.complete c).resp = s.resp := rfl
@[simp] theorem State.complete_draws (c : ErrCode) : (s.complete c).draws = s.draws := rfl

@[simp] theorem State.raise_eq (e : ErrCode) : s.raise e = s.complete e := rfl

/-! ### HC.request (R200) -/

@[simp] theorem State.request_ie (r : Request) (p : Phase) : (s.request r p).ie = s.ie := rfl
@[simp] theorem State.request_busy (r : Request) (p : Phase) : (s.request r p).busy = s.busy := rfl
@[simp] theorem State.request_done (r : Request) (p : Phase) : (s.request r p).done = s.done := rfl
@[simp] theorem State.request_ovr (r : Request) (p : Phase) : (s.request r p).ovr = s.ovr := rfl
@[simp] theorem State.request_err (r : Request) (p : Phase) : (s.request r p).err = s.err := rfl
@[simp] theorem State.request_phase (r : Request) (p : Phase) : (s.request r p).phase = p := rfl
@[simp] theorem State.request_cmdl (r : Request) (p : Phase) : (s.request r p).cmdl = s.cmdl := rfl
@[simp] theorem State.request_result (r : Request) (p : Phase) : (s.request r p).result = s.result := rfl
@[simp] theorem State.request_rlen (r : Request) (p : Phase) : (s.request r p).rlen = s.rlen := rfl
@[simp] theorem State.request_cur (r : Request) (p : Phase) : (s.request r p).cur = s.cur := rfl
@[simp] theorem State.request_nv (r : Request) (p : Phase) : (s.request r p).nv = s.nv := rfl
@[simp] theorem State.request_acc (r : Request) (p : Phase) : (s.request r p).acc = s.acc := rfl
@[simp] theorem State.request_mlen (r : Request) (p : Phase) : (s.request r p).mlen = s.mlen := rfl
@[simp] theorem State.request_plen (r : Request) (p : Phase) : (s.request r p).plen = s.plen := rfl
@[simp] theorem State.request_wcount (r : Request) (p : Phase) : (s.request r p).wcount = s.wcount := rfl
@[simp] theorem State.request_wlen (r : Request) (p : Phase) : (s.request r p).wlen = s.wlen := rfl
@[simp] theorem State.request_widx (r : Request) (p : Phase) : (s.request r p).widx = s.widx := rfl
@[simp] theorem State.request_mem (r : Request) (p : Phase) : (s.request r p).mem = s.mem := rfl
@[simp] theorem State.request_hreq (r : Request) (p : Phase) : (s.request r p).hreq = some r := rfl
@[simp] theorem State.request_hresp (r : Request) (p : Phase) : (s.request r p).hresp = s.hresp := rfl
@[simp] theorem State.request_turns (r : Request) (p : Phase) : (s.request r p).turns = s.turns := rfl
@[simp] theorem State.request_hcResponds (r : Request) (p : Phase) : (s.request r p).hcResponds = s.hcResponds := rfl
@[simp] theorem State.request_resp (r : Request) (p : Phase) : (s.request r p).resp = s.resp := rfl
@[simp] theorem State.request_draws (r : Request) (p : Phase) : (s.request r p).draws = s.draws := rfl

/-! ### Pull (R103) -/

@[simp] theorem State.pull_ie : (s.pull).ie = s.ie := rfl
@[simp] theorem State.pull_busy : (s.pull).busy = s.busy := rfl
@[simp] theorem State.pull_done : (s.pull).done = s.done := rfl
@[simp] theorem State.pull_ovr : (s.pull).ovr = s.ovr := rfl
@[simp] theorem State.pull_err : (s.pull).err = s.err := rfl
@[simp] theorem State.pull_phase : (s.pull).phase = s.phase := rfl
@[simp] theorem State.pull_cmdl : (s.pull).cmdl = s.cmdl := rfl
@[simp] theorem State.pull_result : (s.pull).result = s.result := rfl
@[simp] theorem State.pull_rlen : (s.pull).rlen = s.rlen := rfl
@[simp] theorem State.pull_cur : (s.pull).cur = Fin.ofNat 34 (s.cur.val + 1) := rfl
@[simp] theorem State.pull_nv : (s.pull).nv = Fin.ofNat 72 (s.nv.val + 8) := rfl
@[simp] theorem State.pull_acc : (s.pull).acc = s.acc <<< 8 ||| (s.buf .rbuf s.cur.val).setWidth 72 := rfl
@[simp] theorem State.pull_mlen : (s.pull).mlen = s.mlen := rfl
@[simp] theorem State.pull_plen : (s.pull).plen = s.plen := rfl
@[simp] theorem State.pull_wcount : (s.pull).wcount = s.wcount := rfl
@[simp] theorem State.pull_wlen : (s.pull).wlen = s.wlen := rfl
@[simp] theorem State.pull_widx : (s.pull).widx = s.widx := rfl
@[simp] theorem State.pull_mem : (s.pull).mem = s.mem := rfl
@[simp] theorem State.pull_hreq : (s.pull).hreq = s.hreq := rfl
@[simp] theorem State.pull_hresp : (s.pull).hresp = s.hresp := rfl
@[simp] theorem State.pull_turns : (s.pull).turns = s.turns := rfl
@[simp] theorem State.pull_hcResponds : (s.pull).hcResponds = s.hcResponds := rfl
@[simp] theorem State.pull_resp : (s.pull).resp = s.resp := rfl
@[simp] theorem State.pull_draws : (s.pull).draws = s.draws := rfl

/-! ### Extract (R104) -/

@[simp] theorem State.consume_ie (c : Nat) : (s.consume c).ie = s.ie := rfl
@[simp] theorem State.consume_busy (c : Nat) : (s.consume c).busy = s.busy := rfl
@[simp] theorem State.consume_done (c : Nat) : (s.consume c).done = s.done := rfl
@[simp] theorem State.consume_ovr (c : Nat) : (s.consume c).ovr = s.ovr := rfl
@[simp] theorem State.consume_err (c : Nat) : (s.consume c).err = s.err := rfl
@[simp] theorem State.consume_phase (c : Nat) : (s.consume c).phase = s.phase := rfl
@[simp] theorem State.consume_cmdl (c : Nat) : (s.consume c).cmdl = s.cmdl := rfl
@[simp] theorem State.consume_result (c : Nat) : (s.consume c).result = s.result := rfl
@[simp] theorem State.consume_rlen (c : Nat) : (s.consume c).rlen = s.rlen := rfl
@[simp] theorem State.consume_cur (c : Nat) : (s.consume c).cur = s.cur := rfl
@[simp] theorem State.consume_nv (c : Nat) : (s.consume c).nv = Fin.ofNat 72 (s.nv.val - c) := rfl
@[simp] theorem State.consume_acc (c : Nat) : (s.consume c).acc = BitVec.ofNat 72 (s.acc.toNat &&& mask (s.nv.val - c)) := rfl
@[simp] theorem State.consume_mlen (c : Nat) : (s.consume c).mlen = s.mlen := rfl
@[simp] theorem State.consume_plen (c : Nat) : (s.consume c).plen = s.plen := rfl
@[simp] theorem State.consume_wcount (c : Nat) : (s.consume c).wcount = s.wcount := rfl
@[simp] theorem State.consume_wlen (c : Nat) : (s.consume c).wlen = s.wlen := rfl
@[simp] theorem State.consume_widx (c : Nat) : (s.consume c).widx = s.widx := rfl
@[simp] theorem State.consume_mem (c : Nat) : (s.consume c).mem = s.mem := rfl
@[simp] theorem State.consume_hreq (c : Nat) : (s.consume c).hreq = s.hreq := rfl
@[simp] theorem State.consume_hresp (c : Nat) : (s.consume c).hresp = s.hresp := rfl
@[simp] theorem State.consume_turns (c : Nat) : (s.consume c).turns = s.turns := rfl
@[simp] theorem State.consume_hcResponds (c : Nat) : (s.consume c).hcResponds = s.hcResponds := rfl
@[simp] theorem State.consume_resp (c : Nat) : (s.consume c).resp = s.resp := rfl
@[simp] theorem State.consume_draws (c : Nat) : (s.consume c).draws = s.draws := rfl

/-! ### Reset (R220, R221) -/

@[simp] theorem State.resetAll_ie : (s.resetAll).ie = State.reset.ie := rfl
@[simp] theorem State.resetAll_busy : (s.resetAll).busy = State.reset.busy := rfl
@[simp] theorem State.resetAll_done : (s.resetAll).done = State.reset.done := rfl
@[simp] theorem State.resetAll_ovr : (s.resetAll).ovr = State.reset.ovr := rfl
@[simp] theorem State.resetAll_err : (s.resetAll).err = State.reset.err := rfl
@[simp] theorem State.resetAll_phase : (s.resetAll).phase = State.reset.phase := rfl
@[simp] theorem State.resetAll_cmdl : (s.resetAll).cmdl = State.reset.cmdl := rfl
@[simp] theorem State.resetAll_result : (s.resetAll).result = State.reset.result := rfl
@[simp] theorem State.resetAll_rlen : (s.resetAll).rlen = State.reset.rlen := rfl
@[simp] theorem State.resetAll_cur : (s.resetAll).cur = State.reset.cur := rfl
@[simp] theorem State.resetAll_nv : (s.resetAll).nv = State.reset.nv := rfl
@[simp] theorem State.resetAll_acc : (s.resetAll).acc = State.reset.acc := rfl
@[simp] theorem State.resetAll_mlen : (s.resetAll).mlen = State.reset.mlen := rfl
@[simp] theorem State.resetAll_plen : (s.resetAll).plen = State.reset.plen := rfl
@[simp] theorem State.resetAll_wcount : (s.resetAll).wcount = State.reset.wcount := rfl
@[simp] theorem State.resetAll_wlen : (s.resetAll).wlen = State.reset.wlen := rfl
@[simp] theorem State.resetAll_widx : (s.resetAll).widx = State.reset.widx := rfl
@[simp] theorem State.resetAll_mem : (s.resetAll).mem = State.reset.mem := rfl
@[simp] theorem State.resetAll_hreq : (s.resetAll).hreq = State.reset.hreq := rfl
@[simp] theorem State.resetAll_hresp : (s.resetAll).hresp = State.reset.hresp := rfl
@[simp] theorem State.resetAll_turns : (s.resetAll).turns = s.turns := rfl
@[simp] theorem State.resetAll_hcResponds : (s.resetAll).hcResponds = s.hcResponds := rfl
@[simp] theorem State.resetAll_resp : (s.resetAll).resp = s.resp := rfl
@[simp] theorem State.resetAll_draws : (s.resetAll).draws = s.draws := rfl

/-! ### Buffer writes: only the memory changes (R11) -/

theorem State.setBuf_only_mem (b : Buf) (i : Nat) (v : Byte) :
    s.setBuf b i v = { s with mem := (s.setBuf b i v).mem } := by
  unfold State.setBuf; split <;> rfl

theorem State.setBytes_only_mem (b : Buf) (l : ByteString) :
    ∀ (s : State) (i : Nat), s.setBytes b i l = { s with mem := (s.setBytes b i l).mem } := by
  induction l with
  | nil => intro s i; rfl
  | cons v l ih =>
    intro s i
    rw [State.setBytes, ih, State.setBuf_only_mem]

/-! ### setBuf -/

@[simp] theorem State.setBuf_ie (b : Buf) (i : Nat) (v : Byte) : (s.setBuf b i v).ie = s.ie := by rw [State.setBuf_only_mem]
@[simp] theorem State.setBuf_busy (b : Buf) (i : Nat) (v : Byte) : (s.setBuf b i v).busy = s.busy := by rw [State.setBuf_only_mem]
@[simp] theorem State.setBuf_done (b : Buf) (i : Nat) (v : Byte) : (s.setBuf b i v).done = s.done := by rw [State.setBuf_only_mem]
@[simp] theorem State.setBuf_ovr (b : Buf) (i : Nat) (v : Byte) : (s.setBuf b i v).ovr = s.ovr := by rw [State.setBuf_only_mem]
@[simp] theorem State.setBuf_err (b : Buf) (i : Nat) (v : Byte) : (s.setBuf b i v).err = s.err := by rw [State.setBuf_only_mem]
@[simp] theorem State.setBuf_phase (b : Buf) (i : Nat) (v : Byte) : (s.setBuf b i v).phase = s.phase := by rw [State.setBuf_only_mem]
@[simp] theorem State.setBuf_cmdl (b : Buf) (i : Nat) (v : Byte) : (s.setBuf b i v).cmdl = s.cmdl := by rw [State.setBuf_only_mem]
@[simp] theorem State.setBuf_result (b : Buf) (i : Nat) (v : Byte) : (s.setBuf b i v).result = s.result := by rw [State.setBuf_only_mem]
@[simp] theorem State.setBuf_rlen (b : Buf) (i : Nat) (v : Byte) : (s.setBuf b i v).rlen = s.rlen := by rw [State.setBuf_only_mem]
@[simp] theorem State.setBuf_cur (b : Buf) (i : Nat) (v : Byte) : (s.setBuf b i v).cur = s.cur := by rw [State.setBuf_only_mem]
@[simp] theorem State.setBuf_nv (b : Buf) (i : Nat) (v : Byte) : (s.setBuf b i v).nv = s.nv := by rw [State.setBuf_only_mem]
@[simp] theorem State.setBuf_acc (b : Buf) (i : Nat) (v : Byte) : (s.setBuf b i v).acc = s.acc := by rw [State.setBuf_only_mem]
@[simp] theorem State.setBuf_mlen (b : Buf) (i : Nat) (v : Byte) : (s.setBuf b i v).mlen = s.mlen := by rw [State.setBuf_only_mem]
@[simp] theorem State.setBuf_plen (b : Buf) (i : Nat) (v : Byte) : (s.setBuf b i v).plen = s.plen := by rw [State.setBuf_only_mem]
@[simp] theorem State.setBuf_wcount (b : Buf) (i : Nat) (v : Byte) : (s.setBuf b i v).wcount = s.wcount := by rw [State.setBuf_only_mem]
@[simp] theorem State.setBuf_wlen (b : Buf) (i : Nat) (v : Byte) : (s.setBuf b i v).wlen = s.wlen := by rw [State.setBuf_only_mem]
@[simp] theorem State.setBuf_widx (b : Buf) (i : Nat) (v : Byte) : (s.setBuf b i v).widx = s.widx := by rw [State.setBuf_only_mem]
@[simp] theorem State.setBuf_hreq (b : Buf) (i : Nat) (v : Byte) : (s.setBuf b i v).hreq = s.hreq := by rw [State.setBuf_only_mem]
@[simp] theorem State.setBuf_hresp (b : Buf) (i : Nat) (v : Byte) : (s.setBuf b i v).hresp = s.hresp := by rw [State.setBuf_only_mem]
@[simp] theorem State.setBuf_turns (b : Buf) (i : Nat) (v : Byte) : (s.setBuf b i v).turns = s.turns := by rw [State.setBuf_only_mem]
@[simp] theorem State.setBuf_hcResponds (b : Buf) (i : Nat) (v : Byte) : (s.setBuf b i v).hcResponds = s.hcResponds := by rw [State.setBuf_only_mem]
@[simp] theorem State.setBuf_resp (b : Buf) (i : Nat) (v : Byte) : (s.setBuf b i v).resp = s.resp := by rw [State.setBuf_only_mem]
@[simp] theorem State.setBuf_draws (b : Buf) (i : Nat) (v : Byte) : (s.setBuf b i v).draws = s.draws := by rw [State.setBuf_only_mem]

/-! ### setBytes -/

@[simp] theorem State.setBytes_ie (b : Buf) (i : Nat) (l : ByteString) : (s.setBytes b i l).ie = s.ie := by rw [State.setBytes_only_mem]
@[simp] theorem State.setBytes_busy (b : Buf) (i : Nat) (l : ByteString) : (s.setBytes b i l).busy = s.busy := by rw [State.setBytes_only_mem]
@[simp] theorem State.setBytes_done (b : Buf) (i : Nat) (l : ByteString) : (s.setBytes b i l).done = s.done := by rw [State.setBytes_only_mem]
@[simp] theorem State.setBytes_ovr (b : Buf) (i : Nat) (l : ByteString) : (s.setBytes b i l).ovr = s.ovr := by rw [State.setBytes_only_mem]
@[simp] theorem State.setBytes_err (b : Buf) (i : Nat) (l : ByteString) : (s.setBytes b i l).err = s.err := by rw [State.setBytes_only_mem]
@[simp] theorem State.setBytes_phase (b : Buf) (i : Nat) (l : ByteString) : (s.setBytes b i l).phase = s.phase := by rw [State.setBytes_only_mem]
@[simp] theorem State.setBytes_cmdl (b : Buf) (i : Nat) (l : ByteString) : (s.setBytes b i l).cmdl = s.cmdl := by rw [State.setBytes_only_mem]
@[simp] theorem State.setBytes_result (b : Buf) (i : Nat) (l : ByteString) : (s.setBytes b i l).result = s.result := by rw [State.setBytes_only_mem]
@[simp] theorem State.setBytes_rlen (b : Buf) (i : Nat) (l : ByteString) : (s.setBytes b i l).rlen = s.rlen := by rw [State.setBytes_only_mem]
@[simp] theorem State.setBytes_cur (b : Buf) (i : Nat) (l : ByteString) : (s.setBytes b i l).cur = s.cur := by rw [State.setBytes_only_mem]
@[simp] theorem State.setBytes_nv (b : Buf) (i : Nat) (l : ByteString) : (s.setBytes b i l).nv = s.nv := by rw [State.setBytes_only_mem]
@[simp] theorem State.setBytes_acc (b : Buf) (i : Nat) (l : ByteString) : (s.setBytes b i l).acc = s.acc := by rw [State.setBytes_only_mem]
@[simp] theorem State.setBytes_mlen (b : Buf) (i : Nat) (l : ByteString) : (s.setBytes b i l).mlen = s.mlen := by rw [State.setBytes_only_mem]
@[simp] theorem State.setBytes_plen (b : Buf) (i : Nat) (l : ByteString) : (s.setBytes b i l).plen = s.plen := by rw [State.setBytes_only_mem]
@[simp] theorem State.setBytes_wcount (b : Buf) (i : Nat) (l : ByteString) : (s.setBytes b i l).wcount = s.wcount := by rw [State.setBytes_only_mem]
@[simp] theorem State.setBytes_wlen (b : Buf) (i : Nat) (l : ByteString) : (s.setBytes b i l).wlen = s.wlen := by rw [State.setBytes_only_mem]
@[simp] theorem State.setBytes_widx (b : Buf) (i : Nat) (l : ByteString) : (s.setBytes b i l).widx = s.widx := by rw [State.setBytes_only_mem]
@[simp] theorem State.setBytes_hreq (b : Buf) (i : Nat) (l : ByteString) : (s.setBytes b i l).hreq = s.hreq := by rw [State.setBytes_only_mem]
@[simp] theorem State.setBytes_hresp (b : Buf) (i : Nat) (l : ByteString) : (s.setBytes b i l).hresp = s.hresp := by rw [State.setBytes_only_mem]
@[simp] theorem State.setBytes_turns (b : Buf) (i : Nat) (l : ByteString) : (s.setBytes b i l).turns = s.turns := by rw [State.setBytes_only_mem]
@[simp] theorem State.setBytes_hcResponds (b : Buf) (i : Nat) (l : ByteString) : (s.setBytes b i l).hcResponds = s.hcResponds := by rw [State.setBytes_only_mem]
@[simp] theorem State.setBytes_resp (b : Buf) (i : Nat) (l : ByteString) : (s.setBytes b i l).resp = s.resp := by rw [State.setBytes_only_mem]
@[simp] theorem State.setBytes_draws (b : Buf) (i : Nat) (l : ByteString) : (s.setBytes b i l).draws = s.draws := by rw [State.setBytes_only_mem]

/-! ### Pulls and reads of eleven bits change the reader alone (R103, R127) -/

/-- k pulls change CUR, NV and ACC only. -/
theorem State.pulls_only_reader (k : Nat) : ∀ s : State, State.pulls k s =
    { s with cur := (State.pulls k s).cur, nv := (State.pulls k s).nv, acc := (State.pulls k s).acc } := by
  induction k with
  | zero => intro s; rfl
  | succ k ih => intro s; rw [State.pulls, ih]; rfl

/-- Read11s change CUR, NV and ACC only. -/
theorem State.read11s_only_reader (w : Nat) : ∀ s : State, (State.read11s w s).2 =
    { s with cur := (State.read11s w s).2.cur, nv := (State.read11s w s).2.nv, acc := (State.read11s w s).2.acc } := by
  induction w with
  | zero => intro s; rfl
  | succ w ih =>
    intro s
    simp only [State.read11s]
    rw [ih, State.fill, State.pulls_only_reader]
    rfl

@[simp] theorem State.read11s_length (w : Nat) : ∀ s : State, (State.read11s w s).1.length = w := by
  induction w with
  | zero => intro s; rfl
  | succ w ih => intro s; simp [State.read11s, ih]

/-- Assemble changes the memory and MLEN only. -/
theorem State.assemble_only (idx : List (BitVec 11)) :
    s.assemble idx = { s with mem := (s.assemble idx).mem, mlen := (s.assemble idx).mlen } := by
  simp [State.assemble]

end Sys2Proof.Machine
end

