-- ==== Sys2Proof/Laws/Buffers.lean ====
section
/-! SUPPORT. The laws of the six buffers: they do not overlap, a write of one byte or of a byte string lands where
it says and leaves every other address alone, and it keeps the memory canonical and within the buffers. -/

namespace Sys2Proof.Machine

/-- Two buffers' bytes at one address are the same byte of the same buffer (R20). -/
theorem Buf.eq_of_address_eq {b b' : Buf} {i j : Nat} (hi : i < b.size) (hj : j < b'.size)
    (h : b.base + i = b'.base + j) : b = b' ∧ i = j := by
  cases b <;> cases b' <;>
    simp only [Buf.base, Buf.size, Config.ebufBytes, Config.rbufBytes, Config.romWordMax, Config.seedBytes,
      Config.passBytes, Config.mbufBytes] at hi hj h <;>
    first
    | exact ⟨rfl, by omega⟩
    | omega

theorem State.setBuf_mem_of_lt (s : State) {b : Buf} {i : Nat} (v : Byte) (h : i < b.size) :
    (s.setBuf b i v).mem = Memory.write s.mem (b.base + i) v := by
  rw [State.setBuf, if_pos h]

theorem State.buf_of_lt (s : State) {b : Buf} {i : Nat} (h : i < b.size) :
    s.buf b i = Memory.read s.mem (b.base + i) := by
  rw [State.buf, if_pos h]

theorem State.buf_of_ge (s : State) {b : Buf} {i : Nat} (h : b.size ≤ i) : s.buf b i = 0 := by
  rw [State.buf, if_neg (by omega)]

/-- A buffer byte depends on the memory alone. -/
theorem State.buf_congr {s t : State} (h : s.mem = t.mem) (b : Buf) (i : Nat) : s.buf b i = t.buf b i := by
  simp only [State.buf, h]

theorem State.slice_congr {s t : State} (h : s.mem = t.mem) (b : Buf) (lo hi : Nat) :
    s.slice b lo hi = t.slice b lo hi := by
  simp only [State.slice, State.buf_congr h]

@[simp] theorem State.slice_length (s : State) (b : Buf) (lo hi : Nat) : (s.slice b lo hi).length = hi - lo := by
  simp [State.slice]

theorem State.slice_getElem (s : State) (b : Buf) (lo hi : Nat) {k : Nat} (h : k < (s.slice b lo hi).length) :
    (s.slice b lo hi)[k] = s.buf b (lo + k) := by
  simp [State.slice]

/-! ### One byte -/

theorem State.setBuf_wf {s : State} (b : Buf) (i : Nat) (v : Byte) (h : Memory.wf s.mem = true) :
    Memory.wf (s.setBuf b i v).mem = true := by
  unfold State.setBuf
  split
  · exact Memory.wf_write _ _ h
  · exact h

theorem State.setBuf_mapped {s : State} (b : Buf) (i : Nat) (v : Byte) (h : ∀ c ∈ s.mem, mapped c.1) :
    ∀ c ∈ (s.setBuf b i v).mem, mapped c.1 := by
  intro c hc
  unfold State.setBuf at hc
  split at hc
  · rename_i hi
    rcases Memory.mem_write hc with hc | hc
    · exact hc ▸ ⟨b, by omega, by omega⟩
    · exact h c hc
  · exact h c hc

theorem State.buf_setBuf_same {s : State} {b : Buf} {i : Nat} (v : Byte) (hw : Memory.wf s.mem = true)
    (hi : i < b.size) : (s.setBuf b i v).buf b i = v := by
  rw [State.buf_of_lt _ hi, State.setBuf_mem_of_lt _ _ hi, Memory.read_write_same v hw]

theorem State.buf_setBuf_other {s : State} {b b' : Buf} {i j : Nat} (v : Byte) (h : b' ≠ b ∨ j ≠ i) :
    (s.setBuf b i v).buf b' j = s.buf b' j := by
  by_cases hi : i < b.size
  · by_cases hj : j < b'.size
    · rw [State.buf_of_lt _ hj, State.buf_of_lt _ hj, State.setBuf_mem_of_lt _ _ hi, Memory.read_write_other]
      intro he
      obtain ⟨rfl, rfl⟩ := Buf.eq_of_address_eq hj hi he
      simp at h
    · rw [State.buf_of_ge _ (by omega), State.buf_of_ge _ (by omega)]
  · rw [State.setBuf, if_neg hi]

theorem State.read_setBuf_outside {s : State} {b : Buf} {i a : Nat} (v : Byte) (h : a ≠ b.base + i) :
    Memory.read (s.setBuf b i v).mem a = Memory.read s.mem a := by
  unfold State.setBuf
  split
  · exact Memory.read_write_other _ _ h
  · rfl

/-! ### A byte string -/

theorem State.setBytes_wf (b : Buf) (l : ByteString) : ∀ {s : State} (i : Nat), Memory.wf s.mem = true →
    Memory.wf (s.setBytes b i l).mem = true := by
  induction l with
  | nil => exact fun _ h => h
  | cons v l ih => exact fun i h => ih (i + 1) (State.setBuf_wf b i v h)

theorem State.setBytes_mapped (b : Buf) (l : ByteString) : ∀ {s : State} (i : Nat), (∀ c ∈ s.mem, mapped c.1) →
    ∀ c ∈ (s.setBytes b i l).mem, mapped c.1 := by
  induction l with
  | nil => exact fun _ h => h
  | cons v l ih => exact fun i h => ih (i + 1) (State.setBuf_mapped b i v h)

/-- Outside the bytes a byte string is stored to, every address reads as before. -/
theorem State.read_setBytes_outside (b : Buf) (l : ByteString) : ∀ {s : State} {i a : Nat},
    a < b.base + i ∨ b.base + i + l.length ≤ a →
    Memory.read (s.setBytes b i l).mem a = Memory.read s.mem a := by
  induction l with
  | nil => intros; rfl
  | cons v l ih =>
    intro s i a h
    rw [State.setBytes, ih (by simp only [List.length_cons] at h; omega),
      State.read_setBuf_outside v (by simp only [List.length_cons] at h; omega)]

theorem State.buf_setBytes_other (b b' : Buf) (l : ByteString) : ∀ {s : State} {i j : Nat},
    b' ≠ b ∨ j < i ∨ i + l.length ≤ j → (s.setBytes b i l).buf b' j = s.buf b' j := by
  induction l with
  | nil => intros; rfl
  | cons v l ih =>
    intro s i j h
    simp only [List.length_cons] at h
    rw [State.setBytes, ih (h.imp_right fun h => by omega), State.buf_setBuf_other v (h.imp_right fun h => by omega)]

/-- A byte string stored inside a buffer is what the buffer then holds. -/
theorem State.buf_setBytes_same (b : Buf) (l : ByteString) : ∀ {s : State} {i k : Nat}, Memory.wf s.mem = true →
    (hk : k < l.length) → i + k < b.size → (s.setBytes b i l).buf b (i + k) = l[k] := by
  induction l with
  | nil => intro s i k _ hk; simp at hk
  | cons v l ih =>
    intro s i k hw hk hs
    cases k with
    | zero =>
      change (State.setBytes (s.setBuf b i v) b (i + 1) l).buf b i = v
      rw [State.buf_setBytes_other b b l (.inr (by omega)), State.buf_setBuf_same v hw (by omega)]
    | succ k =>
      have := ih (s := s.setBuf b i v) (i := i + 1) (k := k) (State.setBuf_wf b i v hw)
        (by simpa using hk) (by omega)
      rw [State.setBytes, show i + (k + 1) = i + 1 + k by omega, this]
      rfl

/-- The slice a byte string was stored to reads back as that byte string. -/
theorem State.slice_setBytes_same (b : Buf) (l : ByteString) {s : State} {i : Nat} (hw : Memory.wf s.mem = true)
    (hs : i + l.length ≤ b.size) : (s.setBytes b i l).slice b i (i + l.length) = l := by
  apply List.ext_getElem
  · simp
  · intro k hk hl
    rw [State.slice_getElem, State.buf_setBytes_same b l hw hl (by omega)]

/-- A slice of another buffer, or of other bytes, reads as before. -/
theorem State.slice_setBytes_other (b b' : Buf) (l : ByteString) {s : State} {i lo hi : Nat}
    (h : b' ≠ b ∨ hi ≤ i ∨ i + l.length ≤ lo) : (s.setBytes b i l).slice b' lo hi = s.slice b' lo hi := by
  apply List.ext_getElem
  · simp
  · intro k hk hl
    simp only [State.slice_length] at hk
    rw [State.slice_getElem, State.slice_getElem, State.buf_setBytes_other b b' l (h.imp_right fun h => by omega)]

end Sys2Proof.Machine
end

