-- ==== Sys2Proof/Laws/Config.lean ====
section
/-! SUPPORT. What the spec says of its parameters holds of them (00_scope.md R8, 93_implementation_defined.md PAR2,
PAR3), whatever the opaque candidates are. -/

namespace Sys2Proof.Config

theorem fallback_admissible : Admissible fallbackWordList fallbackH256 := by
  refine ⟨rfl, rfl, fun i => ?_, fun i j h => ?_⟩
  · simp only [fallbackWordList]
    split_ifs <;> simp [abandon, about, romWordMax]
  · have hi := i.isLt
    have hj := j.isLt
    apply Fin.ext
    simp only [fallbackWordList] at h
    split_ifs at h <;> simp [abandon, about, ← BitVec.toNat_inj] at h <;> omega

/-- WORDLIST and H256 meet every constraint the spec puts on them. -/
theorem admissible : Admissible wordList h256 := by
  by_cases h : Admissible rawWordList rawH256
  · have hw : wordList = rawWordList := funext fun i => if_pos h
    have hh : h256 = rawH256 := funext fun m => if_pos h
    rw [hw, hh]; exact h
  · have hw : wordList = fallbackWordList := funext fun i => if_neg h
    have hh : h256 = fallbackH256 := funext fun m => if_neg h
    rw [hw, hh]; exact fallback_admissible

/-- ROM(0) is "abandon" (R8). -/
theorem wordList_zero : wordList 0 = abandon := admissible.1

/-- The worked example's last word is "about" (PAR3). -/
theorem wordList_zeroIndex : wordList (zeroIndex h256) = about := admissible.2.1

/-- Every entry has 1 to ROM_WORD_MAX bytes (R8). -/
theorem wordList_length (i : Fin 2048) : 1 ≤ (wordList i).length ∧ (wordList i).length ≤ romWordMax :=
  admissible.2.2.1 i

/-- The entries are unique (R8). -/
theorem wordList_injective {i j : Fin 2048} (h : wordList i = wordList j) : i = j := admissible.2.2.2 i j h

end Sys2Proof.Config

namespace Sys2Proof.Machine

/-- ROM(i) has 1 to 16 bytes. -/
theorem rom_length (i : Nat) : 1 ≤ (rom i).length ∧ (rom i).length ≤ 16 := Config.wordList_length _

theorem rom_zero : rom 0 = Config.abandon := Config.wordList_zero

/-- Different indices select different words. -/
theorem rom_injective {i j : Nat} (hi : i < 2048) (hj : j < 2048) (h : rom i = rom j) : i = j := by
  have := congrArg Fin.val (Config.wordList_injective h)
  simpa [Fin.val_ofNat, Nat.mod_eq_of_lt hi, Nat.mod_eq_of_lt hj] using this

end Sys2Proof.Machine
end

