-- ==== Sys2Proof/Laws/Decode.lean ====
section
/-! SUPPORT. The decoder's rows as fields (30_encoding.md R80, R83): a word is its three fields, a word selects a row
exactly when its fixed fields have the row's values, and the fields of a command word are its opcode and operand. -/

namespace Sys2Proof

theorem opField_toNat (w : Word) : (opField w).toNat = w.toNat % 256 := by
  simp [opField, BitVec.extractLsb'_toNat]

theorem argField_toNat (w : Word) : (argField w).toNat = w.toNat / 256 % 2048 := by
  simp [argField, BitVec.extractLsb'_toNat, Nat.shiftRight_eq_div_pow]

theorem rsvdField_toNat (w : Word) : (rsvdField w).toNat = w.toNat / 524288 % 8192 := by
  simp [rsvdField, BitVec.extractLsb'_toNat, Nat.shiftRight_eq_div_pow]

/-- A word is the sum of its fields at their places. -/
theorem word_toNat_fields (w : Word) :
    w.toNat = (opField w).toNat + 256 * (argField w).toNat + 524288 * (rsvdField w).toNat := by
  have := w.isLt
  rw [opField_toNat, argField_toNat, rsvdField_toNat]
  omega

/-- A word is determined by its three fields. -/
theorem word_ext {w w' : Word} (hr : rsvdField w = rsvdField w') (ha : argField w = argField w')
    (ho : opField w = opField w') : w = w' := by
  apply BitVec.eq_of_toNat_eq
  rw [word_toNat_fields w, word_toNat_fields w', hr, ha, ho]

/-- The mask 0xFFF800FF keeps OP and RSVD and clears ARG. -/
theorem and_opMask_toNat (w : Word) :
    (w &&& 0xFFF800FF#32).toNat = (opField w).toNat + 524288 * (rsvdField w).toNat := by
  have hmask : ∀ i : Fin 32, (0xFFF800FF#32)[i.val] = decide (i.val < 8 ∨ 19 ≤ i.val) := by decide
  have hsplit : w &&& 0xFFF800FF#32 = (rsvdField w).setWidth 32 <<< 19 ||| (opField w).setWidth 32 := by
    ext i hi
    rw [BitVec.getElem_and, hmask ⟨i, hi⟩]
    by_cases h8 : i < 8
    · simp [h8, opField, rsvdField, show i < 19 by omega, BitVec.getLsbD_eq_getElem hi]
    by_cases h19 : i < 19
    · simp [h8, h19, opField, rsvdField]
    · simp [h8, h19, opField, rsvdField, show i - 19 < 13 by omega, show 19 ≤ i by omega,
        show 19 + (i - 19) = i by omega, BitVec.getLsbD_eq_getElem hi]
  have ho := (opField w).isLt
  have hr := (rsvdField w).isLt
  rw [hsplit, BitVec.toNat_or, BitVec.toNat_shiftLeft, BitVec.toNat_setWidth, BitVec.toNat_setWidth,
    Nat.mod_eq_of_lt (by omega), Nat.mod_eq_of_lt (b := 2 ^ 32) (by omega), Nat.shiftLeft_eq,
    Nat.mod_eq_of_lt (by omega), Nat.mul_comm, ← Nat.two_pow_add_eq_or_of_lt (by omega)]
  omega

/-- The row test of LOADBR, RDBITS, LOOKUP and GENERATE, in fields. -/
theorem and_opMask_eq_iff (w : Word) {k : Nat} (hk : k < 256) :
    w &&& 0xFFF800FF#32 = BitVec.ofNat 32 k ↔ (rsvdField w).toNat = 0 ∧ (opField w).toNat = k := by
  have ho := (opField w).isLt
  rw [← BitVec.toNat_inj, and_opMask_toNat, BitVec.toNat_ofNat, Nat.mod_eq_of_lt (by omega)]
  omega

/-- The fields of a CMD32 word are the opcode and the operand it was written from (R80, R87). -/
theorem cmdWord_toNat {op v : Nat} (ho : op < 256) (hv : v < 2048) : (cmdWord op v).toNat = op + 256 * v := by
  have : op ||| v <<< 8 = v * 2 ^ 8 + op := by
    rw [Nat.or_comm, Nat.shiftLeft_eq, Nat.mul_comm, Nat.two_pow_add_eq_or_of_lt (by simpa using ho)]
  rw [cmdWord, this, BitVec.toNat_ofNat, Nat.mod_eq_of_lt (by omega)]
  omega

/-! ### The decoder, by fields -/

theorem selects_opMask (w : Word) {k : Nat} (hk : k < 256) :
    (w &&& 0xFFF800FF#32 == BitVec.ofNat 32 k) = decide ((rsvdField w).toNat = 0 ∧ (opField w).toNat = k) := by
  rw [Bool.eq_iff_iff, beq_iff_eq, decide_eq_true_iff, and_opMask_eq_iff w hk]

theorem selects_whole (w : Word) {k : Nat} (hk : k < 256) : (w &&& 0xFFFFFFFF#32 == BitVec.ofNat 32 k) =
    decide ((rsvdField w).toNat = 0 ∧ (opField w).toNat = k ∧ (argField w).toNat = 0) := by
  have hall : w &&& 0xFFFFFFFF#32 = w := BitVec.and_allOnes
  have ho := (opField w).isLt
  rw [Bool.eq_iff_iff, beq_iff_eq, decide_eq_true_iff, hall, ← BitVec.toNat_inj, BitVec.toNat_ofNat,
    Nat.mod_eq_of_lt (by omega), word_toNat_fields w]
  omega

/-- What a word decodes to, by its fields: the rows of R83 and the clauses of R84. -/
theorem decode_fields (w : Word) : decode w =
    if (rsvdField w).toNat ≠ 0 then .illegal .rsvdNotZero
    else match (opField w).toNat with
      | 1 => .command (.loadbr (argField w).toNat)
      | 2 => .command (.rdbits (argField w).toNat)
      | 3 => .command (.lookup (argField w).toNat)
      | 4 => .command (.generate (argField w).toNat)
      | 5 => if (argField w).toNat = 0 then .command .derive else .illegal .argNotZero
      | 6 => if (argField w).toNat = 0 then .command .zeroize else .illegal .argNotZero
      | _ => .illegal .unusedOpcode := by
  have hr : (rsvdField w != 0) = decide ((rsvdField w).toNat ≠ 0) := by
    rw [Bool.eq_iff_iff, bne_iff_ne, decide_eq_true_iff, ne_eq, ← BitVec.toNat_inj]; rfl
  have ho (k : BitVec 8) : (opField w == k) = decide ((opField w).toNat = k.toNat) := by
    rw [Bool.eq_iff_iff, beq_iff_eq, decide_eq_true_iff, ← BitVec.toNat_inj]
  have s1 : (w &&& (0xFFF800FF : Word) == (1 : Word)) = _ := selects_opMask w (k := 1) (by decide)
  have s2 : (w &&& (0xFFF800FF : Word) == (2 : Word)) = _ := selects_opMask w (k := 2) (by decide)
  have s3 : (w &&& (0xFFF800FF : Word) == (3 : Word)) = _ := selects_opMask w (k := 3) (by decide)
  have s4 : (w &&& (0xFFF800FF : Word) == (4 : Word)) = _ := selects_opMask w (k := 4) (by decide)
  have s5 : (w &&& (0xFFFFFFFF : Word) == (5 : Word)) = _ := selects_whole w (k := 5) (by decide)
  have s6 : (w &&& (0xFFFFFFFF : Word) == (6 : Word)) = _ := selects_whole w (k := 6) (by decide)
  simp only [decode, opTable, List.find?, OpRow.selects, illegalReason, hr, ho, s1, s2, s3, s4, s5, s6]
  by_cases h : (rsvdField w).toNat = 0
  · simp only [h, true_and]
    generalize (opField w).toNat = op
    rcases op with _ | _ | _ | _ | _ | _ | _ | op <;> by_cases ha : (argField w).toNat = 0 <;> simp [ha]
  · simp [h]

end Sys2Proof
end

