-- ==== Sys2Proof/Laws/HostBus.lean ====
section
/-! SUPPORT. The host's window: where each offset leads, and which accesses are accesses of the window. -/

namespace Sys2Proof.Machine

/-- An offset below 4096 is in the window. -/
theorem inWindow_of_lt {off : Nat} (h : off < 4096) : inWindow (off : Int) = true := by
  exact decide_eq_true (by simp only [Config.windowBytes]; omega)

/-- A 32-bit access at a multiple of 4 is a word access. -/
theorem wordAccess_of_aligned {off : Nat} (h : off % 4 = 0) : wordAccess (off : Int) 32 = true := by
  exact decide_eq_true ⟨rfl, h⟩

/-- A word read inside the window reads the location there. -/
theorem State.busRead_word (s : State) {off : Nat} (h : off < 4096) (h4 : off % 4 = 0) :
    s.busRead (off : Int) 32 = s.hostRead (locate off) := by
  simp [State.busRead, inWindow_of_lt h, wordAccess_of_aligned h4]

/-- A word write inside the window writes the location there. -/
theorem State.busWrite_word (s : State) {off : Nat} (v : Word) (h : off < 4096) (h4 : off % 4 = 0) :
    s.busWrite (off : Int) 32 v = s.hostWrite (locate off) v := by
  simp [State.busWrite, inWindow_of_lt h, wordAccess_of_aligned h4]

/-- A read with BUSY = 0 returns what stands at the location. -/
theorem State.hostRead_idle {s : State} (l : Loc) (h : s.busy = false) :
    s.hostRead l = { s with resp := .data (s.readLoc l) } := by
  simp [State.hostRead, h]

/-- The offset of a buffer's byte leads to that buffer. -/
theorem locate_buf {b : Buf} {i : Nat} (h : i < b.span) : locate (b.base + i) = .buf b i := by
  have h2 : ¬ b.base + i < 0x160 := by cases b <;> simp only [Buf.base] <;> omega
  rw [locate, if_neg (by omega), if_neg h2, locateBuf]
  cases b <;> split_ifs <;>
    simp only [Buf.covers, Buf.base, Buf.span, Buf.size, Config.ebufBytes, Config.rbufBytes, Config.romWordMax,
      Config.seedBytes, Config.passBytes, Config.mbufBytes] at * <;>
    first | omega | rw [Nat.add_sub_cancel_left]

/-- Past the registers an offset that no buffer covers is reserved. -/
theorem locate_uncovered {off : Nat} (h : 0x160 ≤ off) (hb : ∀ b : Buf, ¬ b.covers off) :
    locate off = .reserved := by
  rw [locate, if_neg (by omega), if_neg (by omega)]
  simp only [locateBuf, hb, if_false]

/-- The offsets between WLEN and WIDX are reserved. -/
theorem locate_after_wlen {off : Nat} (h : 0x038 ≤ off) (h' : off < 0x100) : locate off = .reserved := by
  rw [locate, if_pos h', locateReg]
  iterate 14 rw [if_neg (by omega)]

/-- The offsets of WIDX. -/
theorem locate_widx {off : Nat} (h : 0x100 ≤ off) (h' : off < 0x160) : locate off = .widx ((off - 0x100) / 4) := by
  rw [locate, if_neg (by omega), if_pos h']

/-- A choice between two locations that are not l is not l. -/
theorem ite_loc_ne {c : Prop} [Decidable c] {a b l : Loc} (ha : a ≠ l) (hb : b ≠ l) : (if c then a else b) ≠ l := by
  split <;> assumption

theorem locateBuf_ne_ctrl (off : Nat) : locateBuf off ≠ .ctrl := by
  unfold locateBuf
  repeat' first | exact Loc.noConfusion | apply ite_loc_ne

/-- Only offset 0x004 is CTRL. -/
theorem locate_eq_ctrl {off : Nat} (h : locate off = .ctrl) : off = 0x004 := by
  by_contra hne
  revert h
  by_cases h1 : off < 0x100
  · rw [locate, if_pos h1, locateReg, if_neg hne]
    repeat' first | exact Loc.noConfusion | apply ite_loc_ne
  · rw [locate, if_neg h1]
    exact ite_loc_ne Loc.noConfusion (locateBuf_ne_ctrl off)

/-- Only a buffer's own part of the window leads to it. -/
theorem locate_eq_buf {off : Nat} {b : Buf} {i : Nat} (h : locate off = .buf b i) :
    off = b.base + i ∧ i < b.span := by
  by_contra hne
  revert h
  by_cases h1 : off < 0x100
  · rw [locate, if_pos h1, locateReg]
    repeat' first | exact Loc.noConfusion | apply ite_loc_ne
  · rw [locate, if_neg h1]
    refine ite_loc_ne Loc.noConfusion ?_
    intro h
    rw [locateBuf] at h
    split_ifs at h <;> cases h <;> omega

/-- A byte of a little-endian word. -/
theorem laneByte_toNat (v : Word) (k : Nat) : (laneByte v k).toNat = v.toNat / 2 ^ (8 * k) % 256 := by
  rw [laneByte, BitVec.extractLsb'_toNat, Nat.shiftRight_eq_div_pow]

end Sys2Proof.Machine
end

