-- ==== Sys2Proof/Laws/PerInstr.lean ====
section
/-! SUPPORT. Facts about every command as syntax, one lemma per constructor of Instr. -/

namespace Sys2Proof.Laws

/-- The CMD word of a well-formed command selects a row of the opcode map (30_encoding.md R83), and that row builds
the command from the word's ARG field. -/
def EncodeSelectsRow.Statement (i : Instr) : Prop :=
  i.wellFormed = true → ∃ r ∈ opTable, r.selects (encode i) = true ∧ r.build (argField (encode i)).toNat = i

/-- The row test and the operand of a command word whose row leaves ARG free. -/
theorem cmdWord_selects {op v : Nat} (ho : op < 256) (hv : v < 2048) :
    cmdWord op v &&& 0xFFF800FF#32 = BitVec.ofNat 32 op ∧ (argField (cmdWord op v)).toNat = v := by
  rw [and_opMask_eq_iff _ ho, rsvdField_toNat, opField_toNat, argField_toNat, cmdWord_toNat ho hv]
  omega

theorem EncodeSelectsRow.loadbr (n : Nat) : EncodeSelectsRow.Statement (.loadbr n) := fun h => by
  obtain ⟨hs, ha⟩ := cmdWord_selects (op := 0x01) (by decide) (of_decide_eq_true h : n < 2048)
  exact ⟨opTable[0], by simp [opTable], by simpa [OpRow.selects, opTable, encode] using hs,
    by simpa [opTable, encode] using ha⟩

theorem EncodeSelectsRow.rdbits (c : Nat) : EncodeSelectsRow.Statement (.rdbits c) := fun h => by
  obtain ⟨hs, ha⟩ := cmdWord_selects (op := 0x02) (by decide) (of_decide_eq_true h : c < 2048)
  exact ⟨opTable[1], by simp [opTable], by simpa [OpRow.selects, opTable, encode] using hs,
    by simpa [opTable, encode] using ha⟩

theorem EncodeSelectsRow.lookup (i : Nat) : EncodeSelectsRow.Statement (.lookup i) := fun h => by
  obtain ⟨hs, ha⟩ := cmdWord_selects (op := 0x03) (by decide) (of_decide_eq_true h : i < 2048)
  exact ⟨opTable[2], by simp [opTable], by simpa [OpRow.selects, opTable, encode] using hs,
    by simpa [opTable, encode] using ha⟩

theorem EncodeSelectsRow.generate (b : Nat) : EncodeSelectsRow.Statement (.generate b) := fun h => by
  obtain ⟨hs, ha⟩ := cmdWord_selects (op := 0x04) (by decide) (of_decide_eq_true h : b < 2048)
  exact ⟨opTable[3], by simp [opTable], by simpa [OpRow.selects, opTable, encode] using hs,
    by simpa [opTable, encode] using ha⟩

theorem EncodeSelectsRow.derive : EncodeSelectsRow.Statement .derive := fun _ =>
  ⟨opTable[4], by simp [opTable], by decide, rfl⟩

theorem EncodeSelectsRow.zeroize : EncodeSelectsRow.Statement .zeroize := fun _ =>
  ⟨opTable[5], by simp [opTable], by decide, rfl⟩

end Sys2Proof.Laws
end

