-- ==== Sys2Proof/Laws/Reader.lean ====
section
/-! SUPPORT. The bit reader's counters as numbers (40_bitreader.md R102 to R105). -/

namespace Sys2Proof.Machine

theorem mask_lt (c : Nat) : mask c < 2 ^ c := Nat.sub_lt (Nat.two_pow_pos c) (by decide)

/-- A mask of c bits is a reduction modulo 2^c. -/
theorem and_mask (x c : Nat) : x &&& mask c = x % 2 ^ c := Nat.and_two_pow_sub_one_eq_mod x c

theorem State.pull_cur_val {s : State} (h : s.cur.val < 33) : s.pull.cur.val = s.cur.val + 1 := by
  rw [State.pull_cur, Fin.val_ofNat, Nat.mod_eq_of_lt (by omega)]

theorem State.pull_nv_val {s : State} (h : s.nv.val < 64) : s.pull.nv.val = s.nv.val + 8 := by
  rw [State.pull_nv, Fin.val_ofNat, Nat.mod_eq_of_lt (by omega)]

/-- Pull on numbers: the rule's `((ACC << 8) | RBUF[CUR]) mod 2^72` (R103). -/
theorem State.pull_acc_toNat (s : State) :
    s.pull.acc.toNat = (s.acc.toNat * 2 ^ 8 + (s.buf .rbuf s.cur.val).toNat) % 2 ^ 72 := by
  have hb := (s.buf .rbuf s.cur.val).isLt
  have hs : s.acc.toNat * 2 ^ 8 % 2 ^ 72 = 2 ^ 8 * (s.acc.toNat % 2 ^ 64) := by omega
  rw [State.pull_acc, BitVec.toNat_or, BitVec.toNat_shiftLeft, BitVec.toNat_setWidth, Nat.shiftLeft_eq, hs,
    Nat.mod_eq_of_lt (b := 2 ^ 72) (by omega), ← Nat.two_pow_add_eq_or_of_lt hb]
  omega

theorem State.pulls_cur_val {k : Nat} : ∀ {s : State}, s.cur.val + k ≤ 33 →
    (State.pulls k s).cur.val = s.cur.val + k := by
  induction k with
  | zero => intros; rfl
  | succ k ih =>
    intro s h
    have := State.pull_cur_val (s := s) (by omega)
    rw [State.pulls, ih (by omega)]
    omega

theorem State.pulls_nv_val {k : Nat} : ∀ {s : State}, s.nv.val + 8 * k ≤ 71 →
    (State.pulls k s).nv.val = s.nv.val + 8 * k := by
  induction k with
  | zero => intros; rfl
  | succ k ih =>
    intro s h
    have := State.pull_nv_val (s := s) (by omega)
    rw [State.pulls, ih (by omega)]
    omega

theorem State.consume_nv_val (s : State) (c : Nat) : (s.consume c).nv.val = s.nv.val - c := by
  rw [State.consume_nv, Fin.val_ofNat, Nat.mod_eq_of_lt (by omega)]

theorem State.consume_acc_toNat (s : State) (c : Nat) :
    (s.consume c).acc.toNat = s.acc.toNat % 2 ^ (s.nv.val - c) := by
  have := s.acc.isLt
  rw [State.consume_acc, and_mask, BitVec.toNat_ofNat, Nat.mod_eq_of_lt]
  exact lt_of_le_of_lt (Nat.mod_le _ _) this

theorem State.extracted_toNat (s : State) {c : Nat} (h : c ≤ 64) :
    (s.extracted c).toNat = s.acc.toNat / 2 ^ (s.nv.val - c) % 2 ^ c := by
  rw [State.extracted, and_mask, Nat.shiftRight_eq_div_pow, BitVec.toNat_ofNat, Nat.mod_eq_of_lt]
  exact lt_of_lt_of_le (Nat.mod_lt _ (Nat.two_pow_pos c)) (Nat.pow_le_pow_right (by decide) h)

/-- The pulls of a read of c bits leave between c and c + 7 valid bits, and never more than 71 (R105). -/
theorem State.fill_nv_val {s : State} {c : Nat} (h : c ≤ 64) :
    (s.fill c).nv.val = s.nv.val + 8 * bytesToPull c s.nv.val ∧ c ≤ (s.fill c).nv.val := by
  have hk : s.nv.val + 8 * bytesToPull c s.nv.val ≤ 71 ∧ c ≤ s.nv.val + 8 * bytesToPull c s.nv.val := by
    unfold bytesToPull; split <;> omega
  rw [State.fill, State.pulls_nv_val hk.1]
  exact ⟨rfl, hk.2⟩

end Sys2Proof.Machine
end

