-- ==== Sys2Proof/Laws/Step.lean ====
section
/-! SUPPORT. What each step function can answer, said once: the steps of each agent, the commands, the host's
accesses. Later proofs cite these and do not unfold the functions. -/

namespace Sys2Proof.Machine

/-! ### The step -/

theorem step_planned {s : State} {t : Turn} {rest : List Turn} (h : s.turns = t :: rest) :
    step s = State.take { s with turns := rest } t := by
  rw [step, h]

theorem step_unplanned {s : State} (h : s.turns = []) : step s = s.unplanned := by
  rw [step, h]

theorem State.run_zero (s : State) : s.run 0 = .next s := rfl

/-- A run goes on from the state its first step answers. -/
theorem run_succ_of_step (M : Host.Core) {k : Nat} {s t : M.State} (h : M.step s = .next t) :
    M.run (k + 1) s = M.run k t := by
  have : M.run (k + 1) s = match M.step s with
    | .next t => M.run k t
    | .fault r => .fault r
    | .refused r => .refused r := rfl
  rw [this, h]

theorem State.run_succ {k : Nat} {s t : State} (h : step s = .next t) : s.run (k + 1) = t.run k :=
  run_succ_of_step core h

/-! ### The commands: every outcome -/

theorem execLoadbr_cases (n : Nat) (s : State) :
    (33 < n ∧ execLoadbr n s = .next (s.complete .paramRange)) ∨
    (n ≤ 33 ∧ execLoadbr n s =
      .next (State.complete { s with rlen := Fin.ofNat 34 n, cur := 0, nv := 0, acc := 0 } .ok)) := by
  unfold execLoadbr
  by_cases h : 33 < n
  · exact .inl ⟨h, if_pos h⟩
  · exact .inr ⟨by omega, if_neg h⟩

theorem execRdbits_cases (c : Nat) (s : State) :
    ((c < 1 ∨ 64 < c) ∧ execRdbits c s = .next (s.complete .paramRange)) ∨
    (1 ≤ c ∧ c ≤ 64 ∧ s.rlen.val < s.cur.val + bytesToPull c s.nv.val ∧
      execRdbits c s = .next (s.complete .insufficientData)) ∨
    (1 ≤ c ∧ c ≤ 64 ∧ s.cur.val + bytesToPull c s.nv.val ≤ s.rlen.val ∧ execRdbits c s =
      .next (State.complete { (s.fill c).consume c with result := (s.fill c).extracted c } .ok)) := by
  unfold execRdbits
  simp only [Config.countMax]
  split
  · exact .inl ⟨‹_›, rfl⟩
  · split
    · exact .inr (.inl ⟨by omega, by omega, ‹_›, rfl⟩)
    · exact .inr (.inr ⟨by omega, by omega, by omega, rfl⟩)

@[simp] theorem padTo_length (n : Nat) (l : ByteString) : (padTo n l).length = n := by simp [padTo]

/-- A byte string of full length is its own padding. -/
theorem padTo_of_length {n : Nat} {l : ByteString} (h : l.length = n) : padTo n l = l := by
  apply List.ext_getElem
  · simp [h]
  · intro k _ hk; simp [padTo, hk]

/-- LOOKUP always completes; it writes WORD, WLEN and what `complete` writes. -/
theorem execLookup_spec (i : Nat) (s : State) : ∃ t, execLookup i s = .next t ∧
    t.mem = (s.setBytes .word 0 (padTo 16 (rom i))).mem ∧ t.wlen.val = (rom i).length ∧
    t = State.complete { s with mem := t.mem, wlen := t.wlen } .ok := by
  have hr := (rom_length i).2
  refine ⟨_, rfl, ?_, ?_, ?_⟩
  all_goals unfold Config.romWordMax; generalize padTo 16 (rom i) = l
  · simp
  · simp [Nat.mod_eq_of_lt (show (rom i).length < 17 by omega)]
  · conv_lhs => rw [State.setBytes_only_mem]
    simp [State.complete]

/-- GENERATE's last step completes with OK. -/
theorem State.generateFinish_completes (s : State) (d : ByteString) :
    ∃ q : State, s.generateFinish d = q.complete .ok := ⟨_, rfl⟩

/-- The indices GENERATE reads and the reader it leaves (R127): what its last step's Read11s answer. -/
def State.generateReads (s : State) (d : ByteString) : List (BitVec 11) × State :=
  State.read11s (wordCount s.arg)
    (State.pack { s with hresp := none } (s.slice .ebuf 0 (entropyBytes s.arg)) (d.getD 0 0))

/-- What GENERATE's last step leaves in the fields the words of the sentence do not reach. -/
theorem State.generateFinish_fields (s : State) (d : ByteString) :
    (s.generateFinish d).widx = widxOf (s.generateReads d).1 ∧
    (s.generateFinish d).brStateWord = (s.generateReads d).2.brStateWord ∧
    (s.generateFinish d).acc = (s.generateReads d).2.acc ∧
    (s.generateFinish d).wcount = Fin.ofNat 25 (wordCount s.arg) := by
  simp [State.generateFinish, State.generateReads, State.assemble, State.brStateWord]

/-- DERIVE's last step writes SEED, consumes the answer and completes. -/
theorem State.deriveFinish_spec (s : State) (d : ByteString) :
    (s.deriveFinish d).mem = (s.setBytes .seed 0 (padTo 64 d)).mem ∧
    s.deriveFinish d = State.complete { s with mem := (s.deriveFinish d).mem, hresp := none } .ok := by
  unfold State.deriveFinish Config.seedBytes
  generalize padTo 64 d = l
  refine ⟨by simp, ?_⟩
  conv_lhs => rw [State.setBytes_only_mem]
  simp [State.complete]

theorem execGenerate_cases (b : Nat) (s : State) :
    (entropySizeOk b = true ∧ execGenerate b s =
      .next (s.request (.h256 (s.slice .ebuf 0 (entropyBytes b))) .hwait)) ∨
    (entropySizeOk b = false ∧ execGenerate b s = .next (s.complete .invalidEntropySize)) := by
  unfold execGenerate
  cases h : entropySizeOk b
  · exact .inr ⟨rfl, rfl⟩
  · exact .inl ⟨rfl, rfl⟩

theorem execDerive_cases (s : State) :
    ((512 < s.mlen.toNat ∨ 256 < s.plen.toNat) ∧ execDerive s = .next (s.complete .paramRange)) ∨
    (s.mlen.toNat ≤ 512 ∧ s.plen.toNat ≤ 256 ∧
      execDerive s = .next (s.request (.kdf s.password s.salt Config.kdfIter Config.seedBytes) .kwait)) := by
  unfold execDerive
  by_cases h : 512 < s.mlen.toNat ∨ 256 < s.plen.toNat
  · exact .inl ⟨h, if_pos h⟩
  · exact .inr ⟨by omega, by omega, if_neg h⟩

/-! ### SEQ's step (R186) -/

theorem State.seqStep_decode {s : State} (h : s.phase = .decode) : s.seqStep = s.decodeStep := by
  unfold State.seqStep; rw [h]

theorem State.seqStep_hwait {s : State} {d : ByteString} (h : s.phase = .hwait) (hd : s.hresp = some d) :
    s.seqStep = .next (s.generateFinish d) := by
  unfold State.seqStep; rw [h, hd]

theorem State.seqStep_kwait {s : State} {d : ByteString} (h : s.phase = .kwait) (hd : s.hresp = some d) :
    s.seqStep = .next (s.deriveFinish d) := by
  unfold State.seqStep; rw [h, hd]

/-- Where SEQ is not enabled its turn passes. -/
theorem State.seqStep_disabled {s : State} (h : s.seqEnabled = false) : s.seqStep = .next s := by
  unfold State.seqStep
  unfold State.seqEnabled at h
  cases hp : s.phase <;> cases hr : s.hresp <;> simp_all

/-! ### The host's accesses (R61 to R66) -/

/-- A host read changes the response and the draw counter only. -/
theorem State.hostRead_only (s : State) (l : Loc) :
    s.hostRead l = { s with resp := (s.hostRead l).resp, draws := (s.hostRead l).draws } := by
  unfold State.hostRead; split <;> rfl

theorem State.busRead_only (s : State) (off : Int) (width : Nat) :
    s.busRead off width = { s with resp := (s.busRead off width).resp, draws := (s.busRead off width).draws } := by
  unfold State.busRead
  split
  · rfl
  · split
    · rfl
    · exact State.hostRead_only s _

theorem State.unlessBusy_busy {s : State} (w : State) (h : s.busy = true) :
    s.unlessBusy w = { s with ovr := true } := if_pos h

theorem State.unlessBusy_idle {s : State} (w : State) (h : s.busy = false) : s.unlessBusy w = w := by
  simp [State.unlessBusy, h]

/-- The buffers the host may write (R20). -/
def Buf.hostWritable : Buf → Bool
  | .ebuf => true
  | .rbuf => true
  | .pass => true
  | .mbuf => true
  | .word => false
  | .seed => false

/-- Everything a host write can do to the state, before the response is noted. -/
theorem State.writeLoc_cases (s : State) (v : Word) (l : Loc) :
    s.writeLoc v l = s ∨ (l = .ctrl ∧ s.writeLoc v l = s.writeCtrl v) ∨ s.writeLoc v l = s.writeStatus v ∨
    s.writeLoc v l = s.writeCmd v ∨ (s.busy = true ∧ s.writeLoc v l = { s with ovr := true }) ∨
    (s.busy = false ∧ (s.writeLoc v l = { s with mlen := v.setWidth 16 } ∨
      s.writeLoc v l = { s with plen := v.setWidth 16 } ∨
      ∃ b i, l = .buf b i ∧ b.hostWritable = true ∧ s.writeLoc v l = s.setBufWord b i v)) := by
  have key : ∀ w, s.unlessBusy w = { s with ovr := true } ∧ s.busy = true ∨ s.unlessBusy w = w ∧ s.busy = false := by
    intro w
    by_cases hb : s.busy = true
    · exact .inl ⟨State.unlessBusy_busy w hb, hb⟩
    · exact .inr ⟨State.unlessBusy_idle w (by simpa using hb), by simpa using hb⟩
  cases l with
  | ctrl => exact .inr (.inl ⟨rfl, rfl⟩)
  | status => exact .inr (.inr (.inl rfl))
  | cmd => exact .inr (.inr (.inr (.inl rfl)))
  | mlen =>
    rcases key { s with mlen := v.setWidth 16 } with ⟨h, hb⟩ | ⟨h, hb⟩
    · exact .inr (.inr (.inr (.inr (.inl ⟨hb, h⟩))))
    · exact .inr (.inr (.inr (.inr (.inr ⟨hb, .inl h⟩))))
  | plen =>
    rcases key { s with plen := v.setWidth 16 } with ⟨h, hb⟩ | ⟨h, hb⟩
    · exact .inr (.inr (.inr (.inr (.inl ⟨hb, h⟩))))
    · exact .inr (.inr (.inr (.inr (.inr ⟨hb, .inr (.inl h)⟩))))
  | buf b i =>
    have hbuf : s.writeLoc v (.buf b i) = s ∨
        b.hostWritable = true ∧ s.writeLoc v (.buf b i) = s.unlessBusy (s.setBufWord b i v) := by
      cases b
      case word | seed => exact .inl rfl
      all_goals exact .inr ⟨rfl, rfl⟩
    rcases hbuf with h | ⟨hw, h⟩
    · exact .inl h
    · rcases key (s.setBufWord b i v) with ⟨hk, hb⟩ | ⟨hk, hb⟩
      · exact .inr (.inr (.inr (.inr (.inl ⟨hb, h.trans hk⟩))))
      · exact .inr (.inr (.inr (.inr (.inr ⟨hb, .inr (.inr ⟨b, i, rfl, hw, h.trans hk⟩)⟩))))
  | id | resultLo | resultHi | brState | acc0 | acc1 | acc2 | wcount | wlen | widx | reserved => exact .inl rfl

end Sys2Proof.Machine
end

