-- ==== Sys2Proof/Tests/Slice0.lean ====
section
/-! SUPPORT. Small tests: ill-formed terms refused, words written out bit by bit, one step of each command on the
vectors of 95_test_vectors.md, and for every statement with hypotheses a state that meets them. -/

namespace Sys2Proof.Tests

open Sys2Proof.Machine

/-! ### Helpers -/

/-- The state a step answers. -/
def after : Result → State
  | .next t => t
  | .fault _ => State.reset
  | .refused _ => State.reset

/-- The state after reset with bytes placed in a buffer from byte 0. -/
def holding (b : Buf) (l : ByteString) : State := State.reset.setBytes b 0 l

/-- s with the word latched and the turns planned, as after an accepted CMD write. -/
def latched (s : State) (w : Word) (turns : List Turn) : State :=
  { s with cmdl := w, busy := true, phase := .decode, turns := turns }

/-- RBUF = A5 3C FF after LOADBR 3 (stream A of section 2.2). -/
def streamA : State := { holding .rbuf [0xA5, 0x3C, 0xFF] with rlen := 3 }

/-- Stream A after its first RDBITS 11. -/
def streamA11 : State := { streamA with cur := 2, nv := 5, acc := 0x1C, result := 0x529 }

/-- Stream D after its RDBITS 1: seven valid zero bits and eight bytes to go. -/
def streamD1 : State := { holding .rbuf [0x80, 0, 0, 0, 0, 0, 0, 0, 1] with rlen := 9, cur := 1, nv := 7 }

/-- GENERATE b in HWAIT with the digest's first byte d0 answered and SEQ's turn next. -/
def hashed (s : State) (w : Word) (d0 : Byte) : State :=
  { s with cmdl := w, busy := true, phase := .hwait, hresp := some [d0], turns := [.seq] }

/-- The bytes 00 01 02 ... of vectors V-G9 and V-G10. -/
def counting (n : Nat) : ByteString := (List.range n).map (BitVec.ofNat 8)

/-! ### WellFormed refuses what no field can hold -/

theorem test_loadbr_2048_illFormed : (Instr.loadbr 2048).wellFormed = false := by decide
theorem test_rdbits_2048_illFormed : (Instr.rdbits 2048).wellFormed = false := by decide
theorem test_lookup_2048_illFormed : (Instr.lookup 2048).wellFormed = false := by decide
theorem test_generate_2048_illFormed : (Instr.generate 2048).wellFormed = false := by decide

/-- The largest operands, and the commands with none, are well formed (R82). -/
theorem witness_DecodeEncodeRoundTrip :
    (Instr.loadbr 2047).wellFormed = true ∧ (Instr.rdbits 2047).wellFormed = true ∧
    (Instr.lookup 2047).wellFormed = true ∧ (Instr.generate 2047).wellFormed = true ∧
    Instr.derive.wellFormed = true ∧ Instr.zeroize.wellFormed = true := by decide

/-! ### Decoding: words written out as RSVD, ARG, OP (R80, R83, R87) -/

/-- LOADBR 33: ARG 00000100001, OP 00000001. -/
theorem test_decode_loadbr : decode 0b0000000000000_00000100001_00000001 = .command (.loadbr 33) := by decide
/-- RDBITS 11: ARG 00000001011, OP 00000010. -/
theorem test_decode_rdbits : decode 0b0000000000000_00000001011_00000010 = .command (.rdbits 11) := by decide
/-- LOOKUP 2047: ARG all ones, OP 00000011. -/
theorem test_decode_lookup : decode 0b0000000000000_11111111111_00000011 = .command (.lookup 2047) := by decide
/-- GENERATE 256: ARG 00100000000, OP 00000100. -/
theorem test_decode_generate : decode 0b0000000000000_00100000000_00000100 = .command (.generate 256) := by decide
/-- DERIVE: OP 00000101. -/
theorem test_decode_derive : decode 0b0000000000000_00000000000_00000101 = .command .derive := by decide
/-- ZEROIZE: OP 00000110. -/
theorem test_decode_zeroize : decode 0b0000000000000_00000000000_00000110 = .command .zeroize := by decide

/-- The three clauses of R84, each at an edge of its range. -/
theorem test_decode_illegal :
    decode 0b0000000000001_00000000000_00000001 = .illegal .rsvdNotZero ∧
    decode 0b1000000000000_00000000000_00000011 = .illegal .rsvdNotZero ∧
    decode 0b0000000000000_00000000000_00000000 = .illegal .unusedOpcode ∧
    decode 0b0000000000000_00000000000_00000111 = .illegal .unusedOpcode ∧
    decode 0b0000000000000_00000000000_11111111 = .illegal .unusedOpcode ∧
    decode 0b0000000000000_00000000001_00000101 = .illegal .argNotZero ∧
    decode 0b0000000000000_10000000000_00000110 = .illegal .argNotZero := by decide

/-- One word of each class of R84, and a legal one. -/
theorem witness_EveryWordSelectsOneRowOrIsIllegal :
    illegalWord 0x00000301 = false ∧ illegalWord 0x00080001 = true ∧ illegalWord 0x00000007 = true ∧
    illegalWord 0x00000106 = true := by decide

theorem witness_DecodedWordEncodesBack : decode 0x0007FF03 = .command (.lookup 2047) := by decide

/-- The table's number for RDBITS 11, in 32 bits and in its low 16 bits. -/
theorem test_decodeTableWord :
    decodeTableWord 32 0x00000B02 = some (.rdbits 11) ∧ decodeTableWord 16 0x0B02 = some (.rdbits 11) ∧
    decodeTableWord 32 0x00000000 = none := by decide

/-! ### One step of each command -/

/-- V-L2: LOADBR 33. -/
theorem test_loadbr : (after (execLoadbr 33 streamA11)).brStateWord = 0x00000021 ∧
    (after (execLoadbr 33 streamA11)).acc = 0 := by decide

/-- V-L3: LOADBR 34 raises ParamRange and leaves the reader. -/
theorem test_loadbr_paramRange : (after (execLoadbr 34 streamA11)).err = .paramRange ∧
    (after (execLoadbr 34 streamA11)).brStateWord = 0x00050203 := by decide

/-- Stream A, first line. -/
theorem test_rdbits : (after (execRdbits 11 streamA)).result = 0x529 ∧
    (after (execRdbits 11 streamA)).brStateWord = 0x00050203 ∧ (after (execRdbits 11 streamA)).acc = 0x1C := by decide

/-- Stream D, second line: NV reaches 71 before the extraction. -/
theorem test_rdbits_widest : (after (execRdbits 64 streamD1)).result = 0 ∧
    (after (execRdbits 64 streamD1)).brStateWord = 0x00070909 ∧ (after (execRdbits 64 streamD1)).acc = 1 := by decide

/-- V-K1: LOOKUP 0 sets WLEN to 7 and completes with OK. -/
theorem test_lookup : (after (execLookup 0 streamA)).wlen.val = 7 ∧ (after (execLookup 0 streamA)).err = .ok := by
  obtain ⟨t, h, _, hw, ht⟩ := execLookup_spec 0 streamA
  rw [h]
  refine ⟨hw.trans (by rw [rom_zero]; rfl), ?_⟩
  change t.err = .ok
  rw [ht]; rfl

/-- V-G9: the indices GENERATE 128 leaves for the entropy 00 01 ... 0F and D[0] = 0xBE. -/
theorem test_generate_indices :
    ((hashed (holding .ebuf (counting 16)) 0x00008004 0xBE).generateFinish [0xBE]).widx.toList.take 13 =
      [0, 64, 1030, 64, 643, 28, 257, 266, 88, 771, 540, 251, 0] := by
  rw [(State.generateFinish_fields _ _).1]
  decide +kernel

/-- V-G10: the reader GENERATE 256 leaves, and its word count. -/
theorem test_generate_reader :
    ((hashed (holding .ebuf (counting 32)) 0x00010004 0x63).generateFinish [0x63]).brStateWord = 0x00002121 ∧
    ((hashed (holding .ebuf (counting 32)) 0x00010004 0x63).generateFinish [0x63]).wcount = 24 := by
  obtain ⟨_, hr, _, hw⟩ := State.generateFinish_fields (hashed (holding .ebuf (counting 32)) 0x00010004 0x63) [0x63]
  rw [hr, hw]
  decide +kernel

/-- V-D5: MLEN = 513. -/
theorem test_derive_paramRange : (after (execDerive { State.reset with mlen := 513 })).err = .paramRange ∧
    (after (execDerive { State.reset with mlen := 513 })).hreq = none := by decide

/-- V-D3: with both lengths 0 the request is KDF(empty, "mnemonic", 2048, 64). -/
theorem test_derive_request : (after (execDerive State.reset)).hreq =
    some (.kdf [] [0x6D, 0x6E, 0x65, 0x6D, 0x6F, 0x6E, 0x69, 0x63] 2048 64) := by decide

/-- ZEROIZE clears RBUF and the reader, and keeps CMDL. -/
theorem test_zeroize : (after (execZeroize (latched streamA11 6 []))).slice .rbuf 0 3 = [0, 0, 0] ∧
    (after (execZeroize (latched streamA11 6 []))).brStateWord = 0 ∧
    (after (execZeroize (latched streamA11 6 []))).cmdl = 6 := by decide

/-- The first step after reset runs the word placed. -/
theorem test_withFetchWord : (after (step (State.reset.withFetchWord 32 0x00002101))).rlen = 33 := by decide

/-- Host reads of a little-endian word, and of RBUF's last byte, alone in its word. -/
theorem test_host_reads :
    (streamA.busRead 0x240 32).resp = .data 0x00FF3CA5 ∧
    ((State.reset.busWrite 0x260 32 0xAABBCCDD).busRead 0x260 32).resp = .data 0x000000DD := by decide

/-- The last index and the word count of V-G10 and the RESULT of stream B, at their offsets (R20, R33, R35, R70). -/
theorem test_host_reads_registers :
    (({ State.reset with widx := State.reset.widx.set 23 1891 } : State).busRead 0x15C 32).resp = .data 1891 ∧
    (({ State.reset with wcount := 24 } : State).busRead 0x030 32).resp = .data 24 ∧
    (({ State.reset with result := 0x8101820283038404 } : State).busRead 0x010 32).resp = .data 0x83038404 ∧
    (({ State.reset with result := 0x8101820283038404 } : State).busRead 0x014 32).resp = .data 0x81018202 := by decide

/-! ### The invariant in the states used below -/

/-- A state whose reader and counters are at reset, in IDLE or DECODE, meets the invariant. -/
theorem inv_latched {s : State} (w : Word) (turns : List Turn) (h : s.Inv) (hp : s.phase = .idle)
    (hd : s.done = false) : (latched s w turns).Inv where
  memWf := h.memWf
  memMapped := h.memMapped
  busyIff := by simp [latched]
  busyNotDone := fun _ => hd
  curLe := h.curLe
  nvLe := h.nvLe
  accLt := h.accLt
  wcountOk := h.wcountOk
  quiet := fun _ => h.quiet (.inl hp)
  hashing := fun e => by simp [latched] at e
  seeding := fun e => by simp [latched] at e

theorem inv_reset : State.reset.Inv := by
  constructor <;> simp [State.reset, Memory.wf, Memory.wfFrom]

theorem inv_holding (b : Buf) (l : ByteString) : (holding b l).Inv := by
  have h := inv_reset
  have he : holding b l = { State.reset with mem := (holding b l).mem } := State.setBytes_only_mem b l _ 0
  have hw : Memory.wf (holding b l).mem = true := State.setBytes_wf b l 0 h.memWf
  have hm : ∀ c ∈ (holding b l).mem, mapped c.1 := State.setBytes_mapped b l 0 h.memMapped
  rw [he]
  exact ⟨hw, hm, h.busyIff, h.busyNotDone, h.curLe, h.nvLe, h.accLt, h.wcountOk, h.quiet,
    fun e => Phase.noConfusion e, fun e => Phase.noConfusion e⟩

/-- GENERATE 128 waiting for the digest of 16 zero bytes, with HC silent. -/
def awaiting : State :=
  { State.reset with
    cmdl := 0x00008004, busy := true, phase := .hwait, hcResponds := false
    hreq := some (.h256 (State.reset.slice .ebuf 0 16)), turns := [.seq, .write 0x028 32 5, .read 0x008 32] }

theorem inv_awaiting : awaiting.Inv := by
  have h := inv_reset
  exact ⟨h.memWf, h.memMapped, by decide, fun _ => rfl, h.curLe, h.nvLe, h.accLt, h.wcountOk,
    fun e => absurd e (by decide), fun _ => ⟨by decide, by decide, .inl ⟨by decide, rfl⟩⟩, fun e => absurd e (by decide)⟩

/-- The three turns of a command that asks HC. -/
def threeTurns : List Turn := [.seq, .hc, .seq]

/-! ### Witnesses: states that meet the hypotheses -/

theorem witness_StepRunsDecodedCommand :
    (latched streamA 0x00000B02 [.seq, .hc]).phase = .decode ∧
    decode (latched streamA 0x00000B02 [.seq, .hc]).cmdl = .command (.rdbits 11) ∧
    (latched streamA 0x00000B02 [.seq, .hc]).turns = [.seq, .hc] ∧
    (latched streamA 0x00000B02 []).turns = [] := by decide

theorem witness_IllegalWordRaisesIllegalCommand :
    (latched streamA 0x00088004 [.seq]).phase = .decode ∧
    illegalWord (latched streamA 0x00088004 [.seq]).cmdl = true ∧
    (latched streamA 0x00088004 [.seq]).turns = .seq :: [] := by decide

theorem witness_FetchWordRunsCommand : (Instr.rdbits 64).wellFormed = true := by decide

theorem witness_LoadbrLoadsReader : 33 ≤ 33 ∧ 33 < 34 := by decide

/-- Both clauses: the whole stream of stream A is read, and one bit more than it holds is asked for. -/
theorem witness_RdbitsReadsStream :
    1 ≤ 24 ∧ 25 ≤ 64 ∧ streamA.cur.val ≤ streamA.rlen.val ∧ 24 ≤ streamA.stream.length ∧
    streamA.stream.length < 25 := by decide

/-- Counts 0 and 65, a read past the end, and an error that is not OK. -/
theorem witness_FailedRdbitsIsAtomic :
    0 < 1 ∧ 64 < 65 ∧ streamA11.rlen.val < streamA11.cur.val + (14 - streamA11.nv.val + 7) / 8 ∧
    (∃ t, exec (.rdbits 14) streamA11 = .next t ∧ t.err ≠ .ok) := by
  refine ⟨by decide, by decide, by decide, _, rfl, by decide⟩

theorem witness_PullAppendsOneByte : streamA11.cur.val < streamA11.rlen.val ∧ streamA11.nv.val < 64 := by decide

theorem witness_ExtractTakesOldestBits : 5 ≤ streamA11.nv.val ∧ 5 ≤ 64 := by decide

theorem witness_ShiftIsAtMostSeven :
    streamD1.nv.val ≤ 7 ∧ streamD1.acc.toNat < 2 ^ streamD1.nv.val ∧ 1 ≤ 64 ∧ 64 ≤ 64 ∧
    streamD1.cur.val + (64 - streamD1.nv.val + 7) / 8 ≤ streamD1.rlen.val := by decide

/-- A byte that is consumed (1), the first that is not (2). -/
theorem witness_StreamReadsLiveRbuf :
    Memory.wf streamA11.mem = true ∧ 1 < streamA11.cur.val ∧ streamA11.cur.val ≤ 2 ∧ 2 < streamA11.rlen.val := by
  decide

theorem witness_LookupCopiesRomEntry : 2047 < 2048 ∧ Memory.wf streamA.mem = true := by decide

theorem witness_LookupZeroIsAbandon : Memory.wf streamA.mem = true := by decide

/-- The lengths of X6. -/
theorem witness_GenerateRejectsOtherSizes :
    (∀ b ∈ [0, 127, 129, 159, 161, 257], b ∉ [128, 160, 192, 224, 256]) ∧
    (∀ b ∈ [128, 160, 192, 224, 256], b ∈ [128, 160, 192, 224, 256]) := by decide

theorem witness_GenerateRequestsDigest : 256 ∈ [128, 160, 192, 224, 256] := by decide

/-- The hypotheses of the statements about GENERATE's second step: the smallest and the largest size. -/
theorem witness_GenerateFinalState :
    (hashed (holding .ebuf (counting 16)) 0x00008004 0xBE).phase = .hwait ∧
    (hashed (holding .ebuf (counting 16)) 0x00008004 0xBE).hresp = some (0xBE :: []) ∧
    (hashed (holding .ebuf (counting 16)) 0x00008004 0xBE).turns = .seq :: [] ∧
    (hashed (holding .ebuf (counting 16)) 0x00008004 0xBE).arg = 128 ∧
    Memory.wf (hashed (holding .ebuf (counting 16)) 0x00008004 0xBE).mem = true := by decide

theorem witness_GenerateIndicesClosedForm :
    (hashed (holding .ebuf (counting 32)) 0x00010004 0x63).phase = .hwait ∧
    (hashed (holding .ebuf (counting 32)) 0x00010004 0x63).hresp = some (0x63 :: []) ∧
    (hashed (holding .ebuf (counting 32)) 0x00010004 0x63).turns = .seq :: [] ∧
    (hashed (holding .ebuf (counting 32)) 0x00010004 0x63).arg = 256 ∧
    Memory.wf (hashed (holding .ebuf (counting 32)) 0x00010004 0x63).mem = true := by decide

theorem witness_GenerateWritesSentence :
    (hashed State.reset 0x0000A004 0xDE).phase = .hwait ∧
    (hashed State.reset 0x0000A004 0xDE).hresp = some (0xDE :: []) ∧
    (hashed State.reset 0x0000A004 0xDE).turns = .seq :: [] ∧
    (hashed State.reset 0x0000A004 0xDE).arg = 160 ∧
    Memory.wf (hashed State.reset 0x0000A004 0xDE).mem = true := by decide

theorem witness_GenerateNeverRunsShort : 128 ∈ [128, 160, 192, 224, 256] ∧ (counting 16).length = 128 / 8 := by
  decide

/-- Two states that agree on EBUF[0..16) and differ in RBUF. -/
theorem witness_GenerateIsDeterministic :
    (latched State.reset 0x00008004 threeTurns).Inv ∧
    (latched (holding .rbuf [0xA5]) 0x00008004 threeTurns).Inv ∧
    (latched State.reset 0x00008004 threeTurns).phase = .decode ∧
    (latched (holding .rbuf [0xA5]) 0x00008004 threeTurns).phase = .decode ∧
    decode (latched State.reset 0x00008004 threeTurns).cmdl = .command (.generate 128) ∧
    decode (latched (holding .rbuf [0xA5]) 0x00008004 threeTurns).cmdl = .command (.generate 128) ∧
    (latched State.reset 0x00008004 threeTurns).slice .ebuf 0 16 =
      (latched (holding .rbuf [0xA5]) 0x00008004 threeTurns).slice .ebuf 0 16 ∧
    (latched State.reset 0x00008004 threeTurns).turns = .seq :: .hc :: .seq :: [] ∧
    (latched (holding .rbuf [0xA5]) 0x00008004 threeTurns).turns = .seq :: .hc :: .seq :: [] :=
  ⟨inv_latched _ _ inv_reset rfl rfl, inv_latched _ _ (inv_holding _ _) (by decide) (by decide), rfl, rfl,
    by decide, by decide, by decide, rfl, rfl⟩

theorem witness_ZeroEntropyGivesKnownMnemonic :
    (latched State.reset 0x00008004 threeTurns).Inv ∧
    (latched State.reset 0x00008004 threeTurns).phase = .decode ∧
    (latched State.reset 0x00008004 threeTurns).cmdl = 0x00008004 ∧
    (latched State.reset 0x00008004 threeTurns).slice .ebuf 0 16 = List.replicate 16 0 ∧
    (latched State.reset 0x00008004 threeTurns).turns = .seq :: .hc :: .seq :: [] :=
  ⟨inv_latched _ _ inv_reset rfl rfl, rfl, rfl, by decide, rfl⟩

/-- The lengths just in range and just out of it. -/
theorem witness_DeriveRejectsLengths :
    512 < ({ State.reset with mlen := 513 } : State).mlen.toNat ∧
    256 < ({ State.reset with plen := 257 } : State).plen.toNat := by decide

theorem witness_DeriveRequestsKey :
    ({ State.reset with mlen := 512, plen := 256 } : State).mlen.toNat ≤ 512 ∧
    ({ State.reset with mlen := 512, plen := 256 } : State).plen.toNat ≤ 256 := by decide

/-- DERIVE in KWAIT with an answer of 64 bytes and SEQ's turn next. -/
def keyed : State :=
  { State.reset with
    cmdl := 5, busy := true, phase := .kwait, hresp := some (List.replicate 64 0xC5), turns := [.seq] }

theorem witness_DeriveStoresSeed :
    keyed.phase = .kwait ∧ keyed.hresp = some (List.replicate 64 0xC5) ∧
    (List.replicate 64 (0xC5 : Byte)).length = 64 ∧ keyed.turns = .seq :: [] ∧ Memory.wf keyed.mem = true := by decide

theorem witness_SeedIsKdfOfInputs :
    (latched State.reset 5 threeTurns).Inv ∧ (latched State.reset 5 threeTurns).phase = .decode ∧
    decode (latched State.reset 5 threeTurns).cmdl = .command .derive ∧
    (latched State.reset 5 threeTurns).mlen.toNat ≤ 512 ∧ (latched State.reset 5 threeTurns).plen.toNat ≤ 256 ∧
    (latched State.reset 5 threeTurns).turns = .seq :: .hc :: .seq :: [] :=
  ⟨inv_latched _ _ inv_reset rfl rfl, rfl, by decide, by decide, by decide, rfl⟩

/-- Both clauses: a command that ends with an error, and a waiting one whose answer is there. -/
theorem witness_ExceptionsLeaveNoPartialEffect :
    (∃ t, exec (.loadbr 34) streamA = .next t ∧ t.phase = .idle ∧ t.err ≠ .ok) ∧
    keyed.phase = .kwait ∧ keyed.hresp.isSome = true ∧ keyed.turns = .seq :: [] ∧
    (∃ t, step keyed = .next t) := by
  refine ⟨⟨_, rfl, by decide, by decide⟩, rfl, rfl, rfl, _, rfl⟩

/-- The clauses: a step that leaves BUSY set, a turn that is not SEQ's and no reset, a step that changes ERR. -/
theorem witness_ErrWrittenOnlyByComplete :
    (∃ t, step (latched State.reset 0x00008004 [.seq]) = .next t ∧ t.busy = true) ∧
    (latched State.reset 0x00008004 [.hc]).turns = .hc :: [] ∧ Turn.hc ≠ .seq ∧ Turn.hc.resets = false ∧
    (latched State.reset 0x00002201 [.seq]).Inv ∧
    (∃ t, step (latched State.reset 0x00002201 [.seq]) = .next t ∧
      t.err ≠ (latched State.reset 0x00002201 [.seq]).err) :=
  ⟨⟨_, rfl, by decide⟩, rfl, by decide, rfl, inv_latched _ _ inv_reset rfl rfl, _, rfl, by decide⟩

theorem witness_NothingMovesAfterCompletion :
    ({ holding .rbuf [0xA5] with turns := [.seq] } : State).turns = .seq :: [] ∧
    (holding .rbuf [0xA5]).busy = false ∧ ({ State.reset with turns := [.seq] } : State).Inv ∧
    ({ State.reset with turns := [.hc] } : State).Inv := by
  have h := inv_reset
  exact ⟨rfl, by decide,
    ⟨h.memWf, h.memMapped, h.busyIff, h.busyNotDone, h.curLe, h.nvLe, h.accLt, h.wcountOk, h.quiet,
      fun e => absurd e (by decide), fun e => absurd e (by decide)⟩,
    ⟨h.memWf, h.memMapped, h.busyIff, h.busyNotDone, h.curLe, h.nvLe, h.accLt, h.wcountOk, h.quiet,
      fun e => absurd e (by decide), fun e => absurd e (by decide)⟩⟩

/-- A write that clears DONE, one that clears IE, and the IDLE phase. -/
theorem witness_IrqFollowsEnableAndDone :
    (0x00000002 : Word).getLsbD 1 = true ∧ (0x00000000 : Word).getLsbD 0 = false ∧ State.reset.phase = .idle := by
  decide

/-- A pending H256 request, a pending KDF request, none. -/
theorem witness_HashCoreAnswersRequest :
    ({ State.reset with hreq := some (.h256 [0]), turns := [.hc] } : State).hreq = some (.h256 [0]) ∧
    ({ State.reset with hreq := some (.kdf [0] [1] 2048 64), turns := [.hc] } : State).hreq =
      some (.kdf [0] [1] 2048 64) ∧
    ({ State.reset with turns := [.hc] } : State).hreq = none ∧
    ({ State.reset with turns := [.hc] } : State).turns = .hc :: [] := by decide

/-- The three turns with host accesses between them. -/
theorem witness_CommandEndsIfSeqAndHcGetTurns :
    (latched State.reset 5 [.read 8 32, .seq, .write 0x028 32 1, .hc, .seq]).Inv ∧
    List.Sublist [.seq, .hc, .seq]
      (latched State.reset 5 [.read 8 32, .seq, .write 0x028 32 1, .hc, .seq]).turns :=
  ⟨inv_latched _ _ inv_reset rfl rfl, by decide⟩

theorem witness_WaitsForeverIfHcIsSilent :
    awaiting.Inv ∧ awaiting.phase = .hwait ∧ awaiting.hresp = none ∧ awaiting.hcResponds = false ∧
    (∀ turn ∈ awaiting.turns, turn ≠ .hc ∧ turn.resets = false) :=
  ⟨inv_awaiting, rfl, rfl, rfl, by decide⟩

/-- A value with bit 1 clear and one with bit 1 set. -/
theorem witness_CtrlWriteEnablesOrResets :
    (0x00000001 : Word).getLsbD 1 = false ∧ (0x00000003 : Word).getLsbD 1 = true := by decide

theorem witness_CmdWriteStartsCommand : State.reset.phase = .idle ∧ awaiting.phase ≠ .idle := by decide

theorem witness_LengthRegistersHoldSixteenBits : State.reset.busy = false := rfl

/-- The last offset of the window and a narrow access; a misaligned one; a bus address past the window. -/
theorem witness_BadAccessesChangeNothing :
    ((0 : Int) ≤ 4095 ∧ (4095 : Int) < 4096 ∧ ((8 : Nat) ≠ 32 ∨ (4095 : Int) % 4 ≠ 0)) ∧
    ((0 : Int) ≤ 2 ∧ ((32 : Nat) ≠ 32 ∨ (2 : Int) % 4 ≠ 0)) ∧
    Config.base + 4096 ≤ Config.base + 4096 ∧
    ({ State.reset with turns := [readAt (Config.base + 4096) 32] } : State).turns =
      readAt (Config.base + 4096) 32 :: [] :=
  ⟨by decide, by decide, Nat.le_refl _, rfl⟩

/-- RBUF's last word, of which only the first byte exists. -/
theorem witness_BufferLanesAreLittleEndian :
    streamA.busy = false ∧ Memory.wf streamA.mem = true ∧ 32 % 4 = 0 ∧ 32 < Buf.rbuf.size ∧
    Buf.rbuf.size ≤ 33 ∧ Buf.rbuf ∈ [Buf.ebuf, .rbuf, .pass, .mbuf] := by decide

/-- The first and the last reserved word of each range end on multiples of 4; the two clauses share no offset. -/
theorem witness_ReservedAndReadOnlyIgnoreWrites :
    (0x038 % 4 = 0 ∧ 0x038 ≤ 0x038 ∧ 0x038 < 0x100) ∧ (0xFFC % 4 = 0 ∧ 0xA00 ≤ 0xFFC ∧ 0xFFC < 0x1000) ∧
    (0x33C % 4 = 0 ∧ 0x300 ≤ 0x33C ∧ 0x33C < 0x340) ∧ (0x15C % 4 = 0 ∧ 0x100 ≤ 0x15C ∧ 0x15C < 0x160) := by decide

theorem witness_WritesWhileBusyAreLost :
    awaiting.busy = true ∧ awaiting.phase ≠ .idle ∧ 0x260 % 4 = 0 ∧ 0x240 ≤ 0x260 ∧ 0x260 < 0x264 := by decide

/-- Two busy states that differ in EBUF and RESULT. -/
theorem witness_ReadsWhileBusyRevealNoData :
    (latched streamA11 4 []).busy = true ∧ (latched (holding .ebuf [1]) 4 []).busy = true ∧
    (latched streamA11 4 []).ie = (latched (holding .ebuf [1]) 4 []).ie ∧
    (latched streamA11 4 []).done = (latched (holding .ebuf [1]) 4 []).done ∧
    (latched streamA11 4 []).ovr = (latched (holding .ebuf [1]) 4 []).ovr ∧
    (latched streamA11 4 []).err = (latched (holding .ebuf [1]) 4 []).err ∧
    (latched streamA11 4 []).phase = (latched (holding .ebuf [1]) 4 []).phase ∧
    (latched streamA11 4 []).cmdl = (latched (holding .ebuf [1]) 4 []).cmdl ∧
    (latched streamA11 4 []).resp = (latched (holding .ebuf [1]) 4 []).resp ∧
    (latched streamA11 4 []).draws = (latched (holding .ebuf [1]) 4 []).draws := by decide

theorem witness_ReadsHaveNoSideEffect : State.reset.busy = false := rfl

theorem witness_HostCannotDisturbRunningCommand :
    (latched streamA 4 [.write 0x240 32 0]).busy = true ∧ (latched streamA 4 [.write 0x240 32 0]).phase ≠ .idle ∧
    (latched streamA 4 [.write 0x240 32 0]).turns = .write 0x240 32 0 :: [] ∧
    (Turn.write 0x240 32 0).isHost = true ∧ (Turn.write 0x240 32 0).resets = false := by decide

/-- Each clause: a step that changes RESULT, one that changes SEED, one that changes EBUF's last byte. -/
theorem witness_OnlyListedWritersWrite :
    (after (step (latched streamA 0x00000B02 [.seq]))).result ≠ (latched streamA 0x00000B02 [.seq]).result ∧
    (after (step keyed)).buf .seed 63 ≠ keyed.buf .seed 63 ∧
    (after (step { State.reset with turns := [.write 0x21C 32 0x01000000] })).buf .ebuf 31 ≠
      State.reset.buf .ebuf 31 := by
  decide

/-- An idle state, and the last entry of WIDX. -/
theorem witness_RegisterLayouts : streamA11.busy = false ∧ 23 < 24 := by decide

/-- The first and the last word of the window. -/
theorem witness_ResetValues : 0 < 4096 ∧ 0 % 4 = 0 ∧ 4092 < 4096 ∧ 4092 % 4 = 0 := by decide

theorem witness_HardwareResetStep :
    (latched streamA 4 [.reset, .seq]).turns = .reset :: [.seq] := rfl

theorem witness_EveryStepKeepsInv :
    (latched State.reset 5 [.seq]).Inv ∧ ∃ t, step (latched State.reset 5 [.seq]) = .next t :=
  ⟨inv_latched _ _ inv_reset rfl rfl, _, rfl⟩

end Sys2Proof.Tests
end

section
/-! PROOFS. The bit reader as a stream of bits: pulls lose no bit, an extraction takes the oldest bits, and the
indices GENERATE reads are the stream in groups of eleven (10_state.md R30, 40_bitreader.md R102 to R106,
41_codec.md R127). -/

namespace Sys2Proof.Machine

/-! ### Lists of bits as numbers -/

@[simp] theorem natOfBits_append_singleton (l : List Bool) (b : Bool) :
    natOfBits (l ++ [b]) = 2 * natOfBits l + flagBit b := by
  simp [natOfBits]

/-- The low n bits of a number, the highest first, are the number modulo 2^n. -/
theorem natOfBits_testBits (n : Nat) : ∀ x : Nat,
    natOfBits ((List.range n).map fun i => x.testBit (n - 1 - i)) = x % 2 ^ n := by
  induction n with
  | zero => intro x; simp [natOfBits, Nat.mod_one]
  | succ n ih =>
    intro x
    have hhigh : ((List.range n).map fun i => x.testBit (n + 1 - 1 - i)) =
        (List.range n).map fun i => (x / 2).testBit (n - 1 - i) := by
      refine List.map_congr_left fun i hi => ?_
      have := List.mem_range.1 hi
      rw [← Nat.testBit_succ, show n + 1 - 1 - i = n - 1 - i + 1 by omega]
    have hlow : flagBit (x.testBit 0) = x % 2 := by
      rcases Nat.mod_two_eq_zero_or_one x with h | h <;> simp [flagBit, h]
    rw [List.range_succ, List.map_append, List.map_singleton, natOfBits_append_singleton, hhigh, ih,
      show n + 1 - 1 - n = 0 by omega, hlow, Nat.pow_succ', Nat.mod_mul]
    omega

@[simp] theorem bitsOfByte_length (b : Byte) : (bitsOfByte b).length = 8 := by simp [bitsOfByte]

@[simp] theorem bitStream_length (l : ByteString) : (bitStream l).length = 8 * l.length := by
  simp [bitStream, List.length_flatMap, Nat.mul_comm]

theorem bitStream_cons (b : Byte) (l : ByteString) : bitStream (b :: l) = bitsOfByte b ++ bitStream l := rfl

theorem bitStream_append (l l' : ByteString) : bitStream (l ++ l') = bitStream l ++ bitStream l' :=
  List.flatMap_append

/-- The first c bits of a byte are its top c bits as a number. -/
theorem natOfBits_take_bitsOfByte (b : Byte) {c : Nat} (h : c ≤ 8) :
    natOfBits ((bitsOfByte b).take c) = b.toNat / 2 ^ (8 - c) := by
  have htop : (bitsOfByte b).take c = (List.range c).map fun i => (b.toNat / 2 ^ (8 - c)).testBit (c - 1 - i) := by
    rw [bitsOfByte, ← List.map_take, List.take_range, Nat.min_eq_left h]
    refine List.map_congr_left fun i hi => ?_
    have := List.mem_range.1 hi
    rw [Nat.testBit_div_two_pow, ← BitVec.testBit_toNat, show c - 1 - i + (8 - c) = 7 - i by omega]
  have hlt : b.toNat < 2 ^ (8 - c) * 2 ^ c := by
    rw [← Nat.pow_add, Nat.sub_add_cancel h]; exact b.isLt
  rw [htop, natOfBits_testBits, Nat.mod_eq_of_lt (Nat.div_lt_of_lt_mul hlt)]

/-! ### The valid bits of ACC -/

@[simp] theorem State.accBits_length (s : State) : s.accBits.length = s.nv.val := by simp [State.accBits]

/-- A pull appends the byte's bits below the valid bits (R103). -/
theorem State.pull_accBits {s : State} (h : s.nv.val < 64) :
    s.pull.accBits = s.accBits ++ bitsOfByte (s.buf .rbuf s.cur.val) := by
  have hnv := State.pull_nv_val h
  apply List.ext_getElem
  · rw [State.accBits_length, hnv, List.length_append, State.accBits_length, bitsOfByte_length]
  · intro i hi _
    simp only [State.accBits_length, hnv] at hi
    simp only [State.accBits, bitsOfByte, hnv, List.getElem_append, List.getElem_map, List.getElem_range,
      List.length_map, List.length_range, State.pull_acc, BitVec.getLsbD_or, BitVec.getLsbD_shiftLeft,
      BitVec.getLsbD_setWidth]
    split
    · rw [show s.nv.val + 8 - 1 - i = s.nv.val - 1 - i + 8 by omega,
        BitVec.getLsbD_of_ge (s.buf .rbuf s.cur.val) _ (by omega)]
      simp [show s.nv.val - 1 - i + 8 < 72 by omega]
    · rw [show s.nv.val + 8 - 1 - i = 7 - (i - s.nv.val) by omega]
      simp [show 7 - (i - s.nv.val) < 72 by omega, show 7 - (i - s.nv.val) < 8 by omega]

/-- An extraction returns the oldest valid bits as a number (R104). -/
theorem State.extracted_eq_natOfBits (s : State) {c : Nat} (hc : c ≤ s.nv.val) (h : c ≤ 64) :
    (s.extracted c).toNat = natOfBits (s.accBits.take c) := by
  have hold : s.accBits.take c =
      (List.range c).map fun i => (s.acc.toNat / 2 ^ (s.nv.val - c)).testBit (c - 1 - i) := by
    rw [State.accBits, ← List.map_take, List.take_range, Nat.min_eq_left hc]
    refine List.map_congr_left fun i hi => ?_
    have := List.mem_range.1 hi
    rw [Nat.testBit_div_two_pow, ← BitVec.testBit_toNat,
      show c - 1 - i + (s.nv.val - c) = s.nv.val - 1 - i by omega]
  rw [hold, natOfBits_testBits, State.extracted_toNat s h]

/-- The consumed bits are gone and the others stay (R104). -/
theorem State.consume_accBits (s : State) (c : Nat) : (s.consume c).accBits = s.accBits.drop c := by
  apply List.ext_getElem
  · rw [State.accBits_length, State.consume_nv_val, List.length_drop, State.accBits_length]
  · intro i hi _
    simp only [State.accBits_length, State.consume_nv_val] at hi
    simp only [State.accBits, List.getElem_drop, List.getElem_map, List.getElem_range, ← BitVec.testBit_toNat,
      State.consume_nv_val, State.consume_acc_toNat, Nat.testBit_mod_two_pow]
    rw [decide_eq_true (by omega), Bool.true_and, show s.nv.val - 1 - (c + i) = s.nv.val - c - 1 - i by omega]

/-! ### The stream (R30) -/

theorem State.slice_cons (s : State) (b : Buf) {lo hi : Nat} (h : lo < hi) :
    s.slice b lo hi = s.buf b lo :: s.slice b (lo + 1) hi := by
  rw [State.slice, show hi - lo = hi - (lo + 1) + 1 by omega, List.range_succ_eq_map]
  simp [State.slice, Nat.add_assoc, Nat.add_comm 1]

theorem State.stream_length (s : State) : s.stream.length = s.nv.val + 8 * (s.rlen.val - s.cur.val) := by
  simp [State.stream]

/-- A pull loses no bit of the stream (R103). -/
theorem State.pull_stream {s : State} (hcur : s.cur.val < s.rlen.val) (hnv : s.nv.val < 64) :
    s.pull.stream = s.stream := by
  have := s.rlen.isLt
  rw [State.stream, State.stream, State.pull_accBits hnv, State.pull_cur_val (by omega), State.pull_rlen,
    State.slice_congr (State.pull_mem s), State.slice_cons s .rbuf hcur, bitStream_cons, List.append_assoc]

theorem State.pulls_stream {k : Nat} : ∀ {s : State}, s.cur.val + k ≤ s.rlen.val → s.nv.val + 8 * k ≤ 71 →
    (State.pulls k s).stream = s.stream := by
  induction k with
  | zero => intros; rfl
  | succ k ih =>
    intro s hcur hnv
    have := s.rlen.isLt
    have hc := State.pull_cur_val (s := s) (by omega)
    have hn := State.pull_nv_val (s := s) (by omega)
    rw [State.pulls, ih (by rw [hc, State.pull_rlen]; omega) (by omega), State.pull_stream (by omega) (by omega)]

/-- An extraction takes the first c bits off the stream (R104). -/
theorem State.consume_stream {s : State} {c : Nat} (h : c ≤ s.nv.val) :
    (s.consume c).stream = s.stream.drop c := by
  rw [State.stream, State.consume_accBits, State.slice_congr (State.consume_mem s c), State.stream,
    List.drop_append_of_le_length (by simpa using h)]
  rfl

/-- A read of c bits that the stream can give: the bytes are there, and filling leaves the stream alone (R102). -/
theorem State.fill_spec {s : State} {c : Nat} (hc : c ≤ 64) (hcur : s.cur.val ≤ s.rlen.val)
    (h : c ≤ s.stream.length) :
    (s.fill c).cur.val ≤ s.rlen.val ∧ (s.fill c).rlen = s.rlen ∧ c ≤ (s.fill c).nv.val ∧
      (s.fill c).stream = s.stream := by
  rw [State.stream_length] at h
  have := s.rlen.isLt
  have hk : s.cur.val + bytesToPull c s.nv.val ≤ s.rlen.val ∧ s.nv.val + 8 * bytesToPull c s.nv.val ≤ 71 := by
    unfold bytesToPull; split <;> omega
  refine ⟨?_, ?_, (State.fill_nv_val hc).2, State.pulls_stream hk.1 hk.2⟩
  · rw [State.fill, State.pulls_cur_val (by omega)]; exact hk.1
  · rw [State.fill, State.pulls_only_reader]

/-- The indices Read11s return are the stream in groups of eleven bits (R127). -/
theorem State.read11s_eq_stream (w : Nat) : ∀ {s : State}, s.cur.val ≤ s.rlen.val → 11 * w ≤ s.stream.length →
    (State.read11s w s).1.map BitVec.toNat =
      (List.range w).map fun j => natOfBits ((s.stream.drop (11 * j)).take 11) := by
  induction w with
  | zero => intros; rfl
  | succ w ih =>
    intro s hcur hlen
    obtain ⟨hfcur, hfrlen, hfnv, hfstream⟩ := State.fill_spec (c := 11) (by omega) hcur (by omega)
    have hrest : ((s.fill 11).consume 11).stream = s.stream.drop 11 := by rw [State.consume_stream hfnv, hfstream]
    have hfirst : (((s.fill 11).extracted 11).setWidth 11).toNat = natOfBits (s.stream.take 11) := by
      have hvalid : s.stream.take 11 = (s.fill 11).accBits.take 11 := by
        rw [← hfstream, State.stream, List.take_append_of_le_length (by simpa using hfnv)]
      rw [hvalid, ← State.extracted_eq_natOfBits _ hfnv (by omega), BitVec.toNat_setWidth, Nat.mod_eq_of_lt]
      rw [State.extracted_toNat _ (by omega)]
      exact Nat.mod_lt _ (by decide)
    have htail := ih (s := (s.fill 11).consume 11)
      (by rw [State.consume_cur, State.consume_rlen, hfrlen]; exact hfcur)
      (by rw [hrest, List.length_drop]; omega)
    simp only [State.read11s, Config.idxBits, List.map_cons, hfirst, htail, hrest, List.range_succ_eq_map,
      List.map_map, List.drop_drop]
    simp [Function.comp_def, Nat.mul_succ, Nat.add_comm]

end Sys2Proof.Machine
end

section
/-! PROOFS. GENERATE run to its end: SEQ's first step, HC's answer, SEQ's second step (41_codec.md R121), and what
the second step leaves as a function of the entropy and the digest's first byte (R126 to R128). -/

namespace Sys2Proof.Machine

/-! ### The three steps -/

/-- The state in which SEQ takes GENERATE's second step, when HC has answered the request of the first. -/
def State.answered (s : State) (b : Nat) (rest : List Turn) : State :=
  { s with
    phase := .hwait, hreq := none, turns := rest
    hresp := some (Request.h256 (s.slice .ebuf 0 (entropyBytes b))).answer }

@[simp] theorem State.answered_arg (s : State) (b : Nat) (rest : List Turn) : (s.answered b rest).arg = s.arg := rfl

/-- SEQ, HC, SEQ run a GENERATE of an allowed length to its end (R121, R201). -/
theorem State.run_generate {s : State} {b : Nat} {rest : List Turn} (hp : s.phase = .decode)
    (hd : decode s.cmdl = .command (.generate b)) (hb : entropySizeOk b = true)
    (ht : s.turns = .seq :: .hc :: .seq :: rest) :
    s.run 3 = .next ((s.answered b rest).generateFinish
      (Request.h256 (s.slice .ebuf 0 (entropyBytes b))).answer) := by
  have hseq : step s = .next (State.request { s with turns := .hc :: .seq :: rest }
      (.h256 (s.slice .ebuf 0 (entropyBytes b))) .hwait) := by
    rw [step_planned ht, State.take, State.seqStep_decode (s := { s with turns := .hc :: .seq :: rest }) hp,
      State.decodeStep, hd]
    exact if_pos hb
  have hhc : step (State.request { s with turns := .hc :: .seq :: rest }
      (.h256 (s.slice .ebuf 0 (entropyBytes b))) .hwait) =
      .next { s.answered b rest with turns := .seq :: rest } := rfl
  have hfinish : step { s.answered b rest with turns := .seq :: rest } = .next ((s.answered b rest).generateFinish
      (Request.h256 (s.slice .ebuf 0 (entropyBytes b))).answer) := rfl
  rw [State.run_succ hseq, State.run_succ hhc, State.run_succ hfinish, State.run_zero]

/-! ### Pack and the indices (R126, R127) -/

/-- After Pack the stream is the entropy followed by the digest's first byte (R126). -/
theorem State.pack_stream {s : State} {e : ByteString} (d0 : Byte) (hw : Memory.wf s.mem = true)
    (he : e.length ≤ 32) : (s.pack e d0).stream = bitStream (e ++ [d0]) := by
  have hr : (s.pack e d0).rlen.val = e.length + 1 := Nat.mod_eq_of_lt (by omega)
  have hs : (s.pack e d0).slice .rbuf 0 (e.length + 1) = e ++ [d0] := by
    have hsame := State.slice_setBytes_same .rbuf (e ++ [d0]) (i := 0) hw
      (by simp [Buf.size, Config.rbufBytes]; omega)
    rw [Nat.zero_add, List.length_append, List.length_singleton] at hsame
    exact (State.slice_congr rfl _ _ _).trans hsame
  rw [State.stream, hr]
  change [] ++ bitStream ((s.pack e d0).slice .rbuf 0 (e.length + 1)) = _
  rw [hs, List.nil_append]

theorem mem_of_entropySizeOk {b : Nat} (h : entropySizeOk b = true) : b ∈ [128, 160, 192, 224, 256] :=
  List.contains_iff_mem.1 h

/-- GENERATE's indices are the entropy and the digest's first byte in groups of eleven bits (R127). -/
theorem State.generateReads_eq_stream {s : State} (d : ByteString) (hb : entropySizeOk s.arg = true)
    (hw : Memory.wf s.mem = true) :
    (s.generateReads d).1.map BitVec.toNat = (List.range (wordCount s.arg)).map fun j =>
      natOfBits (((bitStream (s.slice .ebuf 0 (entropyBytes s.arg) ++ [d.getD 0 0])).drop (11 * j)).take 11) := by
  have hmem := mem_of_entropySizeOk hb
  have hsize : entropyBytes s.arg ≤ 32 ∧ 11 * wordCount s.arg ≤ 8 * (entropyBytes s.arg + 1) := by
    simp only [List.mem_cons, List.not_mem_nil, or_false] at hmem
    unfold entropyBytes wordCount
    omega
  have hstream := State.pack_stream (s := { s with hresp := none }) (e := s.slice .ebuf 0 (entropyBytes s.arg))
    (d.getD 0 0) hw (by simpa using hsize.1)
  rw [State.generateReads, State.read11s_eq_stream _ (Nat.zero_le _) (by rw [hstream]; simpa using hsize.2), hstream]

/-! ### The sentence (R128) -/

/-- The memory after a byte string is stored depends on the memory before alone. -/
theorem State.setBytes_mem_congr (b : Buf) (l : ByteString) : ∀ {s t : State} (i : Nat), s.mem = t.mem →
    (s.setBytes b i l).mem = (t.setBytes b i l).mem := by
  induction l with
  | nil => exact fun _ h => h
  | cons v l ih =>
    refine fun i h => ih (i + 1) ?_
    unfold State.setBuf
    split
    · exact congrArg (Memory.write · _ v) h
    · exact h

/-- The text GENERATE's second step assembles from its indices. -/
def State.generateText (s : State) (d : ByteString) : ByteString :=
  sentence ((s.generateReads d).1.map fun i => rom i.toNat)

/-- GENERATE's text is what MBUF then holds, and MLEN is its length (R128). -/
theorem State.generateFinish_text {s : State} (d : ByteString) (hw : Memory.wf s.mem = true)
    (hl : (s.generateText d).length ≤ 512) :
    (s.generateFinish d).mlen = BitVec.ofNat 16 (s.generateText d).length ∧
    (s.generateFinish d).slice .mbuf 0 (s.generateText d).length = s.generateText d := by
  have hreads : Memory.wf (s.generateReads d).2.mem = true := by
    rw [State.generateReads, State.read11s_only_reader]
    exact State.setBytes_wf .rbuf _ 0 hw
  have hmem : (s.generateFinish d).mem = ((s.generateReads d).2.setBytes .mbuf 0 (s.generateText d)).mem :=
    State.setBytes_mem_congr .mbuf _ 0 rfl
  have hsame := State.slice_setBytes_same .mbuf (s.generateText d) (i := 0) hreads
    (by simpa [Buf.size, Config.mbufBytes] using hl)
  rw [Nat.zero_add] at hsame
  exact ⟨rfl, (State.slice_congr hmem _ _ _).trans hsame⟩

end Sys2Proof.Machine
end

section
/-! PROOFS. The worked example: sixteen zero bytes (95_test_vectors.md X1, 00_scope.md R8). -/

namespace Sys2Proof.Machine

/-- Of sixteen zero bytes and a digest byte, eleven groups of eleven bits are 0 and the twelfth is the byte's top
four bits. -/
theorem zeroEntropy_groups (d0 : Byte) :
    ((List.range 12).map fun j => natOfBits (((bitStream (Config.zeroEntropy ++ [d0])).drop (11 * j)).take 11)) =
      List.replicate 11 0 ++ [d0.toNat / 16] := by
  have hbits : bitStream (Config.zeroEntropy ++ [d0]) = List.replicate 128 false ++ bitsOfByte d0 := by
    rw [bitStream_append]; rfl
  have hlast : natOfBits (List.replicate 7 false ++ (bitsOfByte d0).take 4) = d0.toNat / 16 :=
    natOfBits_take_bitsOfByte d0 (c := 4) (by decide)
  rw [hbits, ← hlast]
  rfl

/-- The last word of the example is "about": PAR3 fixes the word the digest's top four bits select. -/
theorem rom_zeroIndex : rom ((Config.h256 Config.zeroEntropy)[0].toNat / 16) = Config.about :=
  Config.wordList_zeroIndex

/-- Eleven times "abandon", then "about", joined by spaces (R128). -/
theorem sentence_zeroEntropy : sentence (List.replicate 11 Config.abandon ++ [Config.about]) =
    (List.replicate 11 [0x61, 0x62, 0x61, 0x6E, 0x64, 0x6F, 0x6E, 0x20]).flatten ++ [0x61, 0x62, 0x6F, 0x75, 0x74] :=
  rfl

/-- The text of GENERATE 128 on sixteen zero bytes, for the digest H256 gives of them. -/
theorem State.generateText_zeroEntropy {s : State} (hw : Memory.wf s.mem = true) (harg : s.arg = 128)
    (he : s.slice .ebuf 0 16 = Config.zeroEntropy) :
    s.generateText (Config.h256 Config.zeroEntropy).toList =
      sentence (List.replicate 11 Config.abandon ++ [Config.about]) := by
  have hidx := State.generateReads_eq_stream (Config.h256 Config.zeroEntropy).toList (by rw [harg]; rfl) hw
  rw [harg, show entropyBytes 128 = 16 from rfl, show wordCount 128 = 12 from rfl, he,
    zeroEntropy_groups] at hidx
  have hd0 : (Config.h256 Config.zeroEntropy).toList.getD 0 0 = (Config.h256 Config.zeroEntropy)[0] := by simp
  have hwords : (s.generateReads (Config.h256 Config.zeroEntropy).toList).1.map (fun i => rom i.toNat) =
      List.replicate 11 Config.abandon ++ [Config.about] := by
    rw [show (fun i : BitVec 11 => rom i.toNat) = rom ∘ BitVec.toNat from rfl, ← List.map_map, hidx, List.map_append,
      List.map_replicate, List.map_singleton, rom_zero, hd0, rom_zeroIndex]
  rw [State.generateText, hwords]

end Sys2Proof.Machine

open Sys2Proof Sys2Proof.Machine

/-- Settles O25: SEQ, HC and SEQ run GENERATE to its end, which leaves its text in MBUF; that text is the example's,
since ROM entry 0 and the word the digest selects are fixed by R8 and PAR3. -/
theorem zeroEntropyGivesKnownMnemonic : Obligations.ZeroEntropyGivesKnownMnemonic := by
  unfold Obligations.ZeroEntropyGivesKnownMnemonic
  intro s rest hinv hphase hcmdl hentropy hturns
  have hdecode : decode s.cmdl = .command (.generate 128) := by rw [hcmdl]; decide
  have harg : (s.answered 128 rest).arg = 128 := by rw [State.answered_arg, State.arg, hcmdl]; decide
  have hanswer : (Request.h256 (s.slice .ebuf 0 (entropyBytes 128))).answer =
      (Config.h256 Config.zeroEntropy).toList := congrArg (fun e => (Config.h256 e).toList) hentropy
  have hrun := State.run_generate hphase hdecode rfl hturns
  rw [hanswer] at hrun
  have htext := State.generateText_zeroEntropy (s := s.answered 128 rest) hinv.memWf harg hentropy
  rw [sentence_zeroEntropy] at htext
  obtain ⟨hmlen, hmbuf⟩ := State.generateFinish_text (s := s.answered 128 rest)
    (Config.h256 Config.zeroEntropy).toList hinv.memWf (by rw [htext]; decide)
  rw [htext] at hmlen hmbuf
  obtain ⟨-, -, -, hwcount⟩ :=
    State.generateFinish_fields (s.answered 128 rest) (Config.h256 Config.zeroEntropy).toList
  rw [harg] at hwcount
  exact ⟨_, hrun, rfl, rfl, congrArg Fin.val hwcount, hmlen, hmbuf⟩

end

section
/-! PROOFS. What one step can do, said once: which agent moves (00_scope.md R4), what a host write changes
(20_memory.md R61 to R65), what SEQ's step answers (60_exceptions.md R186) and each command's outcomes. -/

namespace Sys2Proof.Machine

/-! ### Which agent moves -/

/-- The state the moving agent finds: s with its first planned turn used up (log entry 2). -/
def State.dequeue (s : State) : State := { s with turns := s.turns.tail }

theorem State.dequeue_planned {s : State} {turn : Turn} {rest : List Turn} (h : s.turns = turn :: rest) :
    s.dequeue = { s with turns := rest } := by
  rw [State.dequeue, h]; rfl

theorem State.dequeue_unplanned {s : State} (h : s.turns = []) : s.dequeue = s := by
  have : s.turns.tail = s.turns := by rw [h]; rfl
  rw [State.dequeue, this]

/-- One step is SEQ's, HC's, nobody's, a host read, a host write or the reset input's. -/
theorem step_cases {s t : State} (h : step s = .next t) :
    (s.seqToMove ∧ s.dequeue.seqStep = .next t) ∨ t = s.dequeue.hcStep ∨ t = s.dequeue ∨
    (∃ off width, t = s.dequeue.busRead off width) ∨
    (∃ off width v, s.turns.head? = some (.write off width v) ∧ t = s.dequeue.busWrite off width v) ∨
    (s.turns.head? = some .reset ∧ t = s.dequeue.resetAll) := by
  cases ht : s.turns with
  | nil =>
    rw [State.dequeue_unplanned ht]
    rw [step_unplanned ht, State.unplanned] at h
    split_ifs at h
    · exact .inl ⟨.inr ht, h⟩
    · exact .inr (.inl (Host.Outcome.next.inj h).symm)
    · exact .inr (.inr (.inl (Host.Outcome.next.inj h).symm))
  | cons turn rest =>
    rw [State.dequeue_planned ht]
    rw [step_planned ht] at h
    cases turn with
    | seq => exact .inl ⟨.inl (by rw [ht]; rfl), h⟩
    | hc => exact .inr (.inl (Host.Outcome.next.inj h).symm)
    | read off width => exact .inr (.inr (.inr (.inl ⟨off, width, (Host.Outcome.next.inj h).symm⟩)))
    | write off width v =>
      exact .inr (.inr (.inr (.inr (.inl ⟨off, width, v, rfl, (Host.Outcome.next.inj h).symm⟩))))
    | reset => exact .inr (.inr (.inr (.inr (.inr ⟨rfl, (Host.Outcome.next.inj h).symm⟩))))

/-- HC's step answers the pending request or changes nothing (R201). -/
theorem State.hcStep_cases (s : State) :
    s.hcStep = s ∨ ∃ r, s.hreq = some r ∧ s.hcStep = { s with hreq := none, hresp := some r.answer } := by
  unfold State.hcStep
  cases h : s.hreq with
  | none => exact .inl rfl
  | some r => exact .inr ⟨r, rfl, rfl⟩

/-! ### Host writes -/

/-- A host write resets the block, touches flags alone, starts a command in IDLE, or, with BUSY = 0, writes a length
register or a word of a buffer. -/
theorem State.busWrite_cases (s : State) (off : Int) (width : Nat) (v : Word) :
    ((Turn.write off width v).resets = true ∧ s.busWrite off width v = { s.resetAll with resp := .accepted }) ∨
    (∃ ie done ovr resp, (s.done = false → done = false) ∧
      s.busWrite off width v = { s with ie := ie, done := done, ovr := ovr, resp := resp }) ∨
    (s.phase = .idle ∧ s.busWrite off width v =
      { s with cmdl := v, busy := true, done := false, phase := .decode, resp := .accepted }) ∨
    (s.busy = false ∧ ∃ mlen plen, s.busWrite off width v = { s with mlen := mlen, plen := plen, resp := .accepted }) ∨
    (s.busy = false ∧ ∃ b i, b.hostWritable = true ∧ width = 32 ∧ off = (b.base + i : Nat) ∧ i < b.span ∧
      s.busWrite off width v = { s.setBufWord b i v with resp := .accepted }) := by
  unfold State.busWrite
  split_ifs with hin hword
  · exact .inr (.inl ⟨s.ie, s.done, s.ovr, s.resp, id, rfl⟩)
  · exact .inr (.inl ⟨s.ie, s.done, s.ovr, .busError, id, rfl⟩)
  · simp only [inWindow, wordAccess, Bool.not_eq_true, Bool.not_eq_false', decide_eq_true_eq] at hin hword
    obtain ⟨rfl, -⟩ := hword
    have hoff : off = (off.toNat : Int) := by omega
    unfold State.hostWrite
    rcases s.writeLoc_cases v (locate off.toNat) with h | ⟨hl, h⟩ | h | h | ⟨-, h⟩ | ⟨hb, h | h | ⟨b, i, hl, hw, h⟩⟩ <;>
      rw [h]
    · exact .inr (.inl ⟨s.ie, s.done, s.ovr, .accepted, id, rfl⟩)
    · unfold State.writeCtrl
      split_ifs with h1
      · have h4 := locate_eq_ctrl hl
        exact .inl ⟨by simp [Turn.resets, h1, show off = 4 by omega], rfl⟩
      · exact .inr (.inl ⟨_, s.done, s.ovr, .accepted, id, rfl⟩)
    · exact .inr (.inl ⟨s.ie, s.done && !v.getLsbD 1, _, .accepted, fun hd => by simp [hd], rfl⟩)
    · unfold State.writeCmd
      split_ifs with hp
      · exact .inr (.inr (.inl ⟨hp, rfl⟩))
      · exact .inr (.inl ⟨s.ie, s.done, true, .accepted, id, rfl⟩)
    · exact .inr (.inl ⟨s.ie, s.done, true, .accepted, id, rfl⟩)
    · exact .inr (.inr (.inr (.inl ⟨hb, _, s.plen, rfl⟩)))
    · exact .inr (.inr (.inr (.inl ⟨hb, s.mlen, _, rfl⟩)))
    · obtain ⟨ho, hi⟩ := locate_eq_buf hl
      exact .inr (.inr (.inr (.inr ⟨hb, b, i, hw, rfl, by rw [hoff, ho], hi, rfl⟩)))

/-! ### SEQ's step -/

/-- SEQ runs the latched command, raises IllegalCommand, takes a command's second step, or has no step (R186). -/
theorem State.seqStep_cases {s t : State} (h : s.seqStep = .next t) :
    (s.phase = .decode ∧ ∃ i, decode s.cmdl = .command i ∧ exec i s = .next t) ∨
    (s.phase = .decode ∧ t = s.complete .illegalCommand) ∨
    (s.phase = .hwait ∧ ∃ d, s.hresp = some d ∧ t = s.generateFinish d) ∨
    (s.phase = .kwait ∧ ∃ d, s.hresp = some d ∧ t = s.deriveFinish d) ∨ t = s := by
  cases he : s.seqEnabled with
  | false =>
    rw [State.seqStep_disabled he] at h
    exact .inr (.inr (.inr (.inr (Host.Outcome.next.inj h).symm)))
  | true =>
    unfold State.seqEnabled at he
    cases hp : s.phase with
    | idle => rw [hp] at he; cases he
    | decode =>
      rw [State.seqStep_decode hp, State.decodeStep] at h
      cases hd : decode s.cmdl with
      | command i => rw [hd] at h; exact .inl ⟨rfl, i, rfl, h⟩
      | illegal _ => rw [hd] at h; exact .inr (.inl ⟨rfl, (Host.Outcome.next.inj h).symm⟩)
    | hwait =>
      rw [hp] at he
      obtain ⟨d, hd⟩ := Option.isSome_iff_exists.1 he
      rw [State.seqStep_hwait hp hd] at h
      exact .inr (.inr (.inl ⟨rfl, d, hd, (Host.Outcome.next.inj h).symm⟩))
    | kwait =>
      rw [hp] at he
      obtain ⟨d, hd⟩ := Option.isSome_iff_exists.1 he
      rw [State.seqStep_kwait hp hd] at h
      exact .inr (.inr (.inr (.inl ⟨rfl, d, hd, (Host.Outcome.next.inj h).symm⟩)))

/-- A command's DECODE step completes with nothing else changed, or has the one effect of its own. -/
theorem exec_cases {i : Instr} {s t : State} (h : exec i s = .next t) :
    (∃ c, t = s.complete c) ∨
    (∃ n, i = .loadbr n ∧ t = State.complete { s with rlen := Fin.ofNat 34 n, cur := 0, nv := 0, acc := 0 } .ok) ∨
    (∃ c, i = .rdbits c ∧ c ≤ 64 ∧ s.cur.val + bytesToPull c s.nv.val ≤ s.rlen.val ∧
      t = State.complete { (s.fill c).consume c with result := (s.fill c).extracted c } .ok) ∨
    (∃ j, i = .lookup j ∧ t.mem = (s.setBytes .word 0 (padTo 16 (rom j))).mem ∧
      t = State.complete { s with mem := t.mem, wlen := t.wlen } .ok) ∨
    (∃ b, i = .generate b ∧ entropySizeOk b = true ∧
      t = s.request (.h256 (s.slice .ebuf 0 (entropyBytes b))) .hwait) ∨
    (i = .derive ∧ s.mlen.toNat ≤ Config.mbufBytes ∧ s.plen.toNat ≤ Config.passBytes ∧
      t = s.request (.kdf s.password s.salt Config.kdfIter Config.seedBytes) .kwait) ∨
    (i = .zeroize ∧ t = State.complete
      { s with
        result := 0, rlen := 0, cur := 0, nv := 0, acc := 0, mlen := 0, plen := 0, wcount := 0, wlen := 0
        widx := Vector.replicate 24 0, mem := [] } .ok) := by
  cases i with
  | loadbr n =>
    replace h : execLoadbr n s = .next t := h
    rcases execLoadbr_cases n s with ⟨-, he⟩ | ⟨-, he⟩ <;> obtain rfl := Host.Outcome.next.inj (he.symm.trans h)
    · exact .inl ⟨_, rfl⟩
    · exact .inr (.inl ⟨n, rfl, rfl⟩)
  | rdbits c =>
    replace h : execRdbits c s = .next t := h
    rcases execRdbits_cases c s with ⟨-, he⟩ | ⟨-, -, -, he⟩ | ⟨-, hc, hk, he⟩ <;>
      obtain rfl := Host.Outcome.next.inj (he.symm.trans h)
    · exact .inl ⟨_, rfl⟩
    · exact .inl ⟨_, rfl⟩
    · exact .inr (.inr (.inl ⟨c, rfl, hc, hk, rfl⟩))
  | lookup j =>
    replace h : execLookup j s = .next t := h
    obtain ⟨u, he, hmem, -, hu⟩ := execLookup_spec j s
    obtain rfl := Host.Outcome.next.inj (he.symm.trans h)
    exact .inr (.inr (.inr (.inl ⟨j, rfl, hmem, hu⟩)))
  | generate b =>
    replace h : execGenerate b s = .next t := h
    rcases execGenerate_cases b s with ⟨hb, he⟩ | ⟨-, he⟩ <;> obtain rfl := Host.Outcome.next.inj (he.symm.trans h)
    · exact .inr (.inr (.inr (.inr (.inl ⟨b, rfl, hb, rfl⟩))))
    · exact .inl ⟨_, rfl⟩
  | derive =>
    replace h : execDerive s = .next t := h
    rcases execDerive_cases s with ⟨-, he⟩ | ⟨hm, hp, he⟩ <;> obtain rfl := Host.Outcome.next.inj (he.symm.trans h)
    · exact .inl ⟨_, rfl⟩
    · exact .inr (.inr (.inr (.inr (.inr (.inl ⟨rfl, hm, hp, rfl⟩)))))
  | zeroize => exact .inr (.inr (.inr (.inr (.inr (.inr ⟨rfl, (Host.Outcome.next.inj h).symm⟩)))))

/-- A read of c bits leaves memory, WCOUNT and the hash core's latches (R102). -/
theorem State.fill_consume_frame (s : State) (c : Nat) :
    ((s.fill c).consume c).mem = s.mem ∧ ((s.fill c).consume c).wcount = s.wcount ∧
    ((s.fill c).consume c).hreq = s.hreq ∧ ((s.fill c).consume c).hresp = s.hresp := by
  rw [State.fill, State.pulls_only_reader]
  exact ⟨rfl, rfl, rfl, rfl⟩

/-- GENERATE's last step consumes the answer and leaves RESULT and HREQ (R121, R129). -/
theorem State.generateFinish_frame (s : State) (d : ByteString) :
    (s.generateFinish d).result = s.result ∧ (s.generateFinish d).hreq = s.hreq ∧
    (s.generateFinish d).hresp = none := by
  simp only [State.generateFinish, State.assemble]
  rw [State.read11s_only_reader]
  simp [State.pack]

/-- GENERATE's last step leaves the reader as its reads do (R129). -/
theorem State.generateFinish_reader (s : State) (d : ByteString) :
    (s.generateFinish d).rlen = (s.generateReads d).2.rlen ∧ (s.generateFinish d).cur = (s.generateReads d).2.cur ∧
    (s.generateFinish d).nv = (s.generateReads d).2.nv ∧ (s.generateFinish d).acc = (s.generateReads d).2.acc := by
  simp [State.generateFinish, State.generateReads, State.assemble]

/-- The memory GENERATE's last step leaves: the Packed Buffer is stored, then the text (R126, R128). -/
theorem State.generateFinish_mem (s : State) (d : ByteString) :
    (s.generateFinish d).mem = ((s.setBytes .rbuf 0 (s.slice .ebuf 0 (entropyBytes s.arg) ++ [d.getD 0 0])).setBytes
      .mbuf 0 (s.generateText d)).mem := by
  have hreads : (s.generateReads d).2.mem =
      (s.setBytes .rbuf 0 (s.slice .ebuf 0 (entropyBytes s.arg) ++ [d.getD 0 0])).mem := by
    rw [State.generateReads, State.read11s_only_reader]
    exact State.setBytes_mem_congr .rbuf _ 0 rfl
  exact State.setBytes_mem_congr .mbuf (s.generateText d) 0 hreads

end Sys2Proof.Machine
end

section
/-! PROOFS. The invariant is kept by every agent's step: its clauses on memory and registers by each operation
(10_state.md R28, R29, R33; 40_bitreader.md R105), its clauses on the hash core's latches by SEQ's and HC's steps
(60_exceptions.md R186, R200, R201). -/

namespace Sys2Proof.Machine

/-! ### The clauses on memory and registers -/

/-- Canonical, and within the six buffers. -/
def Memory.Legal (m : Memory) : Prop := Memory.wf m = true ∧ ∀ c ∈ m, mapped c.1

/-- The reader between commands (R28, R29, R105). -/
def State.ReaderLegal (s : State) : Prop :=
  s.cur.val ≤ s.rlen.val ∧ s.nv.val ≤ 7 ∧ s.acc.toNat < 2 ^ s.nv.val

/-- The invariant's clauses that do not speak of PHASE. -/
def State.DataLegal (s : State) : Prop :=
  Memory.Legal s.mem ∧ s.ReaderLegal ∧ s.wcount.val ∈ [0, 12, 15, 18, 21, 24]

theorem State.Inv.dataLegal {s : State} (h : s.Inv) : s.DataLegal :=
  ⟨⟨h.memWf, h.memMapped⟩, ⟨h.curLe, h.nvLe, h.accLt⟩, h.wcountOk⟩

/-- In IDLE the invariant asks no more than legal data, BUSY clear and no request or answer. -/
theorem State.DataLegal.inv_idle {s : State} (h : s.DataLegal) (hp : s.phase = .idle) (hb : s.busy = false)
    (hq : s.hreq = none) (hr : s.hresp = none) : s.Inv := by
  obtain ⟨⟨hwf, hmapped⟩, ⟨hcur, hnv, hacc⟩, hwcount⟩ := h
  refine ⟨hwf, hmapped, by simp [hp, hb], by simp [hb], hcur, hnv, hacc, hwcount, fun _ => ⟨hq, hr⟩, ?_, ?_⟩ <;>
    · intro hw; rw [hp] at hw; cases hw

/-- A completion with legal data and no request or answer left meets the invariant. -/
theorem State.complete_inv {s : State} {c : ErrCode} (hmem : Memory.Legal s.mem) (hreader : s.ReaderLegal)
    (hwcount : s.wcount.val ∈ [0, 12, 15, 18, 21, 24]) (hq : s.hreq = none) (hr : s.hresp = none) :
    (s.complete c).Inv :=
  State.DataLegal.inv_idle (s := s.complete c) ⟨hmem, hreader, hwcount⟩ rfl rfl hq hr

theorem Memory.legal_nil : Memory.Legal [] := ⟨rfl, by simp⟩

theorem State.setBytes_legal {s : State} (b : Buf) (i : Nat) (l : ByteString) (h : Memory.Legal s.mem) :
    Memory.Legal (s.setBytes b i l).mem :=
  ⟨State.setBytes_wf b l i h.1, State.setBytes_mapped b l i h.2⟩

/-! ### The reader -/

/-- A cleared reader is legal, whatever RLEN is. -/
theorem State.readerLegal_cleared {s : State} (hc : s.cur = 0) (hn : s.nv = 0) (ha : s.acc = 0) : s.ReaderLegal := by
  simp [State.ReaderLegal, hc, hn, ha]

/-- A read of bits that the stream can give leaves the reader legal (R105). -/
theorem State.fill_consume_readerLegal {s : State} {c : Nat} (h : s.ReaderLegal) (hc : c ≤ 64)
    (hs : c ≤ s.stream.length) : ((s.fill c).consume c).ReaderLegal := by
  obtain ⟨hcur, hnv, -⟩ := h
  obtain ⟨hfcur, hfrlen, -, -⟩ := State.fill_spec hc hcur hs
  refine ⟨?_, ?_, ?_⟩
  · rw [State.consume_cur, State.consume_rlen, hfrlen]; exact hfcur
  · rw [State.consume_nv_val, (State.fill_nv_val hc).1, bytesToPull]
    split <;> omega
  · rw [State.consume_acc_toNat, State.consume_nv_val]
    exact Nat.mod_lt _ (Nat.two_pow_pos _)

/-- Reads of eleven bits that the stream can give leave the reader legal (R127). -/
theorem State.read11s_readerLegal (w : Nat) : ∀ {s : State}, s.ReaderLegal → 11 * w ≤ s.stream.length →
    (State.read11s w s).2.ReaderLegal := by
  induction w with
  | zero => exact fun h _ => h
  | succ w ih =>
    intro s h hs
    obtain ⟨-, -, hfnv, hfstream⟩ := State.fill_spec (c := 11) (by omega) h.1 (by omega)
    have hrest : ((s.fill 11).consume 11).stream = s.stream.drop 11 := by rw [State.consume_stream hfnv, hfstream]
    have hlegal : ((s.fill 11).consume 11).ReaderLegal := State.fill_consume_readerLegal h (by omega) (by omega)
    have hbits : 11 * w ≤ ((s.fill 11).consume 11).stream.length := by rw [hrest, List.length_drop]; omega
    exact ih hlegal hbits

/-- GENERATE's reads need no more bits than the Packed Buffer has (R130). -/
theorem generate_sizes {b : Nat} (h : entropySizeOk b = true) :
    entropyBytes b ≤ 32 ∧ 11 * wordCount b ≤ 8 * (entropyBytes b + 1) ∧ wordCount b ∈ [12, 15, 18, 21, 24] := by
  have hb := mem_of_entropySizeOk h
  simp only [List.mem_cons, List.not_mem_nil, or_false] at hb
  rcases hb with rfl | rfl | rfl | rfl | rfl <;> decide

/-- GENERATE's reads leave the reader legal. -/
theorem State.generateReads_readerLegal {s : State} (d : ByteString) (hb : entropySizeOk s.arg = true)
    (hw : Memory.wf s.mem = true) : (s.generateReads d).2.ReaderLegal := by
  obtain ⟨hn, hbits, -⟩ := generate_sizes hb
  have hstream := State.pack_stream (s := { s with hresp := none }) (e := s.slice .ebuf 0 (entropyBytes s.arg))
    (d.getD 0 0) hw (by simpa using hn)
  exact State.read11s_readerLegal _ (State.readerLegal_cleared rfl rfl rfl) (by rw [hstream]; simpa using hbits)

/-! ### The host and the reset input -/

/-- The invariant does not speak of IE, OVR, the plan, the response or the draws, and DONE may be cleared. -/
theorem State.Inv.frame {s : State} (h : s.Inv) (ie done ovr : Bool) (turns : List Turn) (resp : BusResp) (draws : Nat)
    (hd : s.done = false → done = false) : ({ s with
      ie := ie, done := done, ovr := ovr, turns := turns, resp := resp, draws := draws } : State).Inv :=
  ⟨h.memWf, h.memMapped, h.busyIff, fun hb => hd (h.busyNotDone hb), h.curLe, h.nvLe, h.accLt, h.wcountOk, h.quiet,
    h.hashing, h.seeding⟩

theorem State.resetAll_inv (s : State) : s.resetAll.Inv :=
  State.DataLegal.inv_idle ⟨Memory.legal_nil, State.readerLegal_cleared rfl rfl rfl, List.mem_cons_self⟩
    rfl rfl rfl rfl

theorem State.Inv.dequeue {s : State} (h : s.Inv) : s.dequeue.Inv := h.frame _ _ _ _ _ _ id

theorem State.Inv.busRead {s : State} (h : s.Inv) (off : Int) (width : Nat) : (s.busRead off width).Inv := by
  rw [State.busRead_only]
  exact h.frame _ _ _ _ _ _ id

/-- With BUSY = 0 the machine is in IDLE, with no request and no answer. -/
theorem State.Inv.idle_of_not_busy {s : State} (h : s.Inv) (hb : s.busy = false) :
    s.phase = .idle ∧ s.hreq = none ∧ s.hresp = none := by
  have hp : s.phase = .idle := by
    by_contra hne
    rw [h.busyIff.2 hne] at hb
    cases hb
  exact ⟨hp, h.quiet (.inl hp)⟩

/-- A CMD write in IDLE meets the invariant: it starts a command with no request and no answer (R26). -/
theorem State.Inv.start {s : State} (h : s.Inv) (hp : s.phase = .idle) (v : Word) (resp : BusResp) : ({ s with
    cmdl := v, busy := true, done := false, phase := .decode, resp := resp } : State).Inv :=
  ⟨h.memWf, h.memMapped, by simp, fun _ => rfl, h.curLe, h.nvLe, h.accLt, h.wcountOk, fun _ => h.quiet (.inl hp),
    fun e => Phase.noConfusion e, fun e => Phase.noConfusion e⟩

theorem State.Inv.busWrite {s : State} (h : s.Inv) (off : Int) (width : Nat) (v : Word) :
    (s.busWrite off width v).Inv := by
  rcases s.busWrite_cases off width v with ⟨-, he⟩ | ⟨ie, done, ovr, resp, hd, he⟩ | ⟨hp, he⟩ |
    ⟨hb, mlen, plen, he⟩ | ⟨hb, b, i, -, -, -, -, he⟩ <;> rw [he]
  · exact s.resetAll_inv.frame _ _ _ _ _ _ id
  · exact h.frame _ _ _ _ _ _ hd
  · exact h.start hp v _
  · obtain ⟨hp, hq, hr⟩ := h.idle_of_not_busy hb
    exact State.DataLegal.inv_idle h.dataLegal hp hb hq hr
  · obtain ⟨hp, hq, hr⟩ := h.idle_of_not_busy hb
    obtain ⟨hmem, hreader, hwcount⟩ := h.dataLegal
    have hset : State.DataLegal { s with mem := (s.setBufWord b i v).mem } :=
      ⟨State.setBytes_legal b i _ hmem, hreader, hwcount⟩
    rw [State.setBufWord, State.setBytes_only_mem]
    exact State.DataLegal.inv_idle hset hp hb hq hr

/-! ### HC -/

/-- HC's answer to the pending request is the one SEQ waits for (R201). -/
theorem State.awaits_answered {s : State} {r r' : Request} (h : s.awaits r) (hq : s.hreq = some r') :
    ({ s with hreq := none, hresp := some r'.answer } : State).awaits r := by
  rcases h with ⟨h, -⟩ | ⟨h, -⟩ <;> rw [hq] at h <;> cases h
  exact .inr ⟨rfl, rfl⟩

/-- Once the answer is there the request is gone (R201). -/
theorem State.awaits_hreq {s : State} {r : Request} {d : ByteString} (h : s.awaits r) (hr : s.hresp = some d) :
    s.hreq = none := by
  rcases h with ⟨-, h⟩ | ⟨h, -⟩
  · rw [hr] at h; cases h
  · exact h

theorem State.Inv.hcStep {s : State} (h : s.Inv) : s.hcStep.Inv := by
  rcases s.hcStep_cases with he | ⟨r, hq, he⟩ <;> rw [he]
  · exact h
  · refine ⟨h.memWf, h.memMapped, h.busyIff, h.busyNotDone, h.curLe, h.nvLe, h.accLt, h.wcountOk, ?_, ?_, ?_⟩
    · intro hp
      have := (h.quiet hp).1
      rw [hq] at this
      cases this
    · intro hp
      obtain ⟨hd, hb, ha⟩ := h.hashing hp
      exact ⟨hd, hb, State.awaits_answered ha hq⟩
    · intro hp
      obtain ⟨hd, hm, hl, ha⟩ := h.seeding hp
      exact ⟨hd, hm, hl, State.awaits_answered ha hq⟩

/-! ### SEQ -/

/-- A decoded GENERATE's operand is the ARG field (R82). -/
theorem arg_of_decode_generate {w : Word} {b : Nat} (h : decode w = .command (.generate b)) :
    (argField w).toNat = b := by
  rw [decode_fields] at h
  split at h
  · cases h
  · split at h
    case h_4 => cases h; rfl
    case h_5 | h_6 => split at h <;> cases h
    all_goals cases h

/-- A command's DECODE step keeps the invariant: it completes with legal data, or asks HC and waits. -/
theorem State.Inv.exec {s t : State} {i : Instr} (h : s.Inv) (hp : s.phase = .decode)
    (hd : decode s.cmdl = .command i) (he : exec i s = .next t) : t.Inv := by
  obtain ⟨hq, hr⟩ := h.quiet (.inr hp)
  obtain ⟨hmem, hreader, hwcount⟩ := h.dataLegal
  rcases exec_cases he with ⟨c, rfl⟩ | ⟨n, rfl, rfl⟩ | ⟨c, rfl, hc, hbytes, rfl⟩ | ⟨j, rfl, hw, ht⟩ |
    ⟨b, rfl, hb, rfl⟩ | ⟨rfl, hm, hl, rfl⟩ | ⟨rfl, rfl⟩
  · exact State.complete_inv hmem hreader hwcount hq hr
  · refine State.complete_inv hmem (State.readerLegal_cleared ?_ ?_ ?_) hwcount hq hr <;> rfl
  · have hstream : c ≤ s.stream.length := by
      have := hreader.1
      rw [State.stream_length]
      unfold bytesToPull at hbytes
      split at hbytes <;> omega
    have hread := State.fill_consume_readerLegal hreader hc hstream
    obtain ⟨hmem', hwcount', hq', hr'⟩ := s.fill_consume_frame c
    rw [← hmem'] at hmem
    rw [← hwcount'] at hwcount
    exact State.complete_inv hmem hread hwcount (hq'.trans hq) (hr'.trans hr)
  · rw [ht]
    refine State.complete_inv ?_ hreader hwcount hq hr
    change Memory.Legal t.mem
    rw [hw]
    exact State.setBytes_legal .word 0 _ hmem
  · refine ⟨h.memWf, h.memMapped, ?_, h.busyNotDone, h.curLe, h.nvLe, h.accLt, h.wcountOk, by simp, ?_, by simp⟩
    · simp [h.busyIff, hp]
    · intro _
      obtain rfl : s.arg = b := arg_of_decode_generate hd
      exact ⟨hd, hb, .inl ⟨rfl, hr⟩⟩
  · refine ⟨h.memWf, h.memMapped, ?_, h.busyNotDone, h.curLe, h.nvLe, h.accLt, h.wcountOk, by simp, by simp, ?_⟩
    · simp [h.busyIff, hp]
    · exact fun _ => ⟨hd, hm, hl, .inl ⟨rfl, hr⟩⟩
  · refine State.complete_inv Memory.legal_nil (State.readerLegal_cleared ?_ ?_ ?_) List.mem_cons_self hq hr <;> rfl

/-- GENERATE's last step keeps the invariant (R129). -/
theorem State.Inv.generateFinish {s : State} {d : ByteString} (h : s.Inv) (hp : s.phase = .hwait)
    (hr : s.hresp = some d) : (s.generateFinish d).Inv := by
  obtain ⟨-, hb, ha⟩ := h.hashing hp
  obtain ⟨hmem, -, -⟩ := h.dataLegal
  obtain ⟨-, hhreq, hhresp⟩ := s.generateFinish_frame d
  obtain ⟨hrlen, hcur, hnv, hacc⟩ := s.generateFinish_reader d
  have hmem' : Memory.Legal (s.generateFinish d).mem := by
    rw [State.generateFinish_mem]
    exact State.setBytes_legal _ _ _ (State.setBytes_legal _ _ _ hmem)
  have hreader : (s.generateFinish d).ReaderLegal := by
    unfold State.ReaderLegal
    rw [hrlen, hcur, hnv, hacc]
    exact s.generateReads_readerLegal d hb h.memWf
  have hwcount : (s.generateFinish d).wcount.val ∈ [0, 12, 15, 18, 21, 24] := by
    obtain ⟨-, -, -, hw⟩ := s.generateFinish_fields d
    obtain ⟨-, -, hcount⟩ := generate_sizes hb
    rw [hw]
    simp only [List.mem_cons, List.not_mem_nil, or_false] at hcount
    rcases hcount with hc | hc | hc | hc | hc <;> rw [hc] <;> decide
  exact State.DataLegal.inv_idle ⟨hmem', hreader, hwcount⟩ rfl rfl (hhreq.trans (State.awaits_hreq ha hr)) hhresp

/-- DERIVE's last step keeps the invariant (R153). -/
theorem State.Inv.deriveFinish {s : State} {d : ByteString} (h : s.Inv) (hp : s.phase = .kwait)
    (hr : s.hresp = some d) : (s.deriveFinish d).Inv := by
  obtain ⟨-, -, -, ha⟩ := h.seeding hp
  obtain ⟨hmem, hreader, hwcount⟩ := h.dataLegal
  have hq := State.awaits_hreq ha hr
  obtain ⟨hw, he⟩ := s.deriveFinish_spec d
  have hmem' : Memory.Legal (s.deriveFinish d).mem := by
    rw [hw]
    exact State.setBytes_legal _ _ _ hmem
  generalize (s.deriveFinish d).mem = m at he hmem'
  rw [he]
  exact State.complete_inv hmem' hreader hwcount hq rfl

theorem State.Inv.seqStep {s t : State} (h : s.Inv) (hs : s.seqStep = .next t) : t.Inv := by
  rcases State.seqStep_cases hs with ⟨hp, i, hd, he⟩ | ⟨hp, rfl⟩ | ⟨hp, d, hr, rfl⟩ | ⟨hp, d, hr, rfl⟩ | rfl
  · exact h.exec hp hd he
  · obtain ⟨hq, hr⟩ := h.quiet (.inr hp)
    obtain ⟨hmem, hreader, hwcount⟩ := h.dataLegal
    exact State.complete_inv hmem hreader hwcount hq hr
  · exact h.generateFinish hp hr
  · exact h.deriveFinish hp hr
  · exact h

end Sys2Proof.Machine

open Sys2Proof Sys2Proof.Machine

/-- Settles O56: each agent's step keeps the invariant. -/
theorem everyStepKeepsInv : Obligations.EveryStepKeepsInv := by
  unfold Obligations.EveryStepKeepsInv
  intro s t h hstep
  have hd := h.dequeue
  rcases step_cases hstep with ⟨-, hseq⟩ | rfl | rfl | ⟨off, width, rfl⟩ | ⟨off, width, v, -, rfl⟩ | ⟨-, rfl⟩
  · exact hd.seqStep hseq
  · exact hd.hcStep
  · exact hd
  · exact hd.busRead off width
  · exact hd.busWrite off width v
  · exact s.dequeue.resetAll_inv

/-- Settles O55: the state after reset is a reset of any state with the model's own fields as they are. -/
theorem invAtReset : Obligations.InvAtReset := by
  unfold Obligations.InvAtReset
  exact State.reset.resetAll_inv

end

section
/-! PROOFS. Who writes ERR, RESULT, SEED and EBUF (10_state.md R24, R27, R36, R39): first what a step that is not
SEQ's leaves alone, then what each of SEQ's steps does to them. -/

namespace Sys2Proof.Machine

/-! ### Steps that are not SEQ's -/

/-- A step that neither resets the block nor is SEQ's leaves ERR and RESULT, and leaves the memory too unless it is
the host's write of a word of a buffer with BUSY = 0. -/
theorem step_not_seq {s t : State} (h : step s = .next t) :
    ((∃ turn ∈ s.turns.head?, turn.resets = true) ∧ t.busy = false) ∨
    (s.seqToMove ∧ s.dequeue.seqStep = .next t) ∨
    (t.err = s.err ∧ t.result = s.result ∧ (t.mem = s.mem ∨
      (s.busy = false ∧ ∃ b i v, b.hostWritable = true ∧ s.turns.head? = some (.write (b.base + i : Nat) 32 v) ∧
        i < b.span ∧ t.mem = (s.dequeue.setBufWord b i v).mem))) := by
  rcases step_cases h with hseq | rfl | rfl | ⟨off, width, rfl⟩ | ⟨off, width, v, hturn, rfl⟩ | ⟨hturn, rfl⟩
  · exact .inr (.inl hseq)
  · right; right
    rcases s.dequeue.hcStep_cases with he | ⟨r, -, he⟩ <;> rw [he] <;> exact ⟨rfl, rfl, .inl rfl⟩
  · exact .inr (.inr ⟨rfl, rfl, .inl rfl⟩)
  · rw [State.busRead_only]
    exact .inr (.inr ⟨rfl, rfl, .inl rfl⟩)
  · rcases s.dequeue.busWrite_cases off width v with ⟨hreset, he⟩ | ⟨ie, done, ovr, resp, -, he⟩ | ⟨-, he⟩ |
      ⟨-, mlen, plen, he⟩ | ⟨hb, b, i, hw, rfl, rfl, hi, he⟩ <;> rw [he]
    · exact .inl ⟨⟨_, hturn, hreset⟩, rfl⟩
    · exact .inr (.inr ⟨rfl, rfl, .inl rfl⟩)
    · exact .inr (.inr ⟨rfl, rfl, .inl rfl⟩)
    · exact .inr (.inr ⟨rfl, rfl, .inl rfl⟩)
    · exact .inr (.inr ⟨State.setBytes_err _ _ _ _, State.setBytes_result _ _ _ _,
        .inr ⟨hb, b, i, v, hw, hturn, hi, rfl⟩⟩)
  · exact .inl ⟨⟨_, hturn, rfl⟩, rfl⟩

/-! ### SEQ's steps -/

/-- A command's DECODE step completes it, or makes a request and waits (R187). -/
theorem exec_completes_or_requests {i : Instr} {s t : State} (h : exec i s = .next t) :
    (∃ q c, t = State.complete q c) ∨ ∃ r p, t = s.request r p := by
  rcases exec_cases h with ⟨c, ht⟩ | ⟨n, -, ht⟩ | ⟨c, -, -, -, ht⟩ | ⟨j, -, -, ht⟩ | ⟨b, -, -, ht⟩ | ⟨-, -, -, ht⟩ |
    ⟨-, ht⟩
  · exact .inl ⟨_, _, ht⟩
  · exact .inl ⟨_, _, ht⟩
  · exact .inl ⟨_, _, ht⟩
  · exact .inl ⟨_, _, ht⟩
  · exact .inr ⟨_, _, ht⟩
  · exact .inr ⟨_, _, ht⟩
  · exact .inl ⟨_, _, ht⟩

/-- SEQ's step leaves ERR, or ends a command (R24, R187). -/
theorem State.seqStep_err {s t : State} (h : s.seqStep = .next t) :
    t.err = s.err ∨ (s.phase ≠ .idle ∧ t.busy = false ∧ t.done = true ∧ t.phase = .idle) := by
  rcases State.seqStep_cases h with ⟨hp, i, -, he⟩ | ⟨hp, rfl⟩ | ⟨hp, d, -, rfl⟩ | ⟨hp, d, -, rfl⟩ | rfl
  · rcases exec_completes_or_requests he with ⟨q, c, rfl⟩ | ⟨r, p, rfl⟩
    · exact .inr ⟨by simp [hp], rfl, rfl, rfl⟩
    · exact .inl rfl
  · exact .inr ⟨by simp [hp], rfl, rfl, rfl⟩
  · exact .inr ⟨by simp [hp], rfl, rfl, rfl⟩
  · exact .inr ⟨by simp [hp], rfl, rfl, rfl⟩
  · exact .inl rfl

/-- Among the commands, RDBITS that ends with OK and ZEROIZE write RESULT (R27). -/
theorem exec_result {i : Instr} {s t : State} (h : exec i s = .next t) :
    t.result = s.result ∨ (t.err = .ok ∧ ((∃ c, i = .rdbits c) ∨ i = .zeroize)) := by
  rcases exec_cases h with ⟨c, rfl⟩ | ⟨n, -, rfl⟩ | ⟨c, hi, -, -, rfl⟩ | ⟨j, -, -, ht⟩ | ⟨b, -, -, rfl⟩ |
    ⟨-, -, -, rfl⟩ | ⟨hi, rfl⟩
  · exact .inl rfl
  · exact .inl rfl
  · exact .inr ⟨rfl, .inl ⟨c, hi⟩⟩
  · rw [ht]; exact .inl rfl
  · exact .inl rfl
  · exact .inl rfl
  · exact .inr ⟨rfl, .inr hi⟩

/-- Among the commands' DECODE steps, LOOKUP writes WORD and ZEROIZE every buffer. -/
theorem exec_buf {i : Instr} {s t : State} {b : Buf} (h : exec i s = .next t) (hb : b ≠ .word) :
    i = .zeroize ∨ ∀ k, t.buf b k = s.buf b k := by
  rcases exec_cases h with ⟨c, rfl⟩ | ⟨n, -, rfl⟩ | ⟨c, -, -, -, rfl⟩ | ⟨j, -, hw, -⟩ | ⟨b, -, -, rfl⟩ |
    ⟨-, -, -, rfl⟩ | ⟨hi, -⟩
  · exact .inr fun _ => rfl
  · exact .inr fun _ => rfl
  · obtain ⟨hmem, -⟩ := s.fill_consume_frame c
    exact .inr (State.buf_congr hmem b)
  · refine .inr fun k => ?_
    rw [State.buf_congr hw, State.buf_setBytes_other _ _ _ (.inl hb)]
  · exact .inr fun _ => rfl
  · exact .inr fun _ => rfl
  · exact .inl hi

/-- RESULT is written in DECODE alone, by a successful RDBITS or ZEROIZE (R27). -/
theorem State.seqStep_result {s t : State} (h : s.seqStep = .next t) :
    t.result = s.result ∨ (s.phase = .decode ∧ t.err = .ok ∧
      ((∃ c, decode s.cmdl = .command (.rdbits c)) ∨ decode s.cmdl = .command .zeroize)) := by
  rcases State.seqStep_cases h with ⟨hp, i, hd, he⟩ | ⟨-, rfl⟩ | ⟨-, d, -, rfl⟩ | ⟨-, d, -, rfl⟩ | rfl
  · rcases exec_result he with hr | ⟨herr, ⟨c, rfl⟩ | rfl⟩
    · exact .inl hr
    · exact .inr ⟨hp, herr, .inl ⟨c, hd⟩⟩
    · exact .inr ⟨hp, herr, .inr hd⟩
  · exact .inl rfl
  · exact .inl (s.generateFinish_frame d).1
  · rw [(s.deriveFinish_spec d).2]; exact .inl rfl
  · exact .inl rfl

/-- GENERATE's last step writes RBUF and MBUF only (R129). -/
theorem State.generateFinish_buf (s : State) (d : ByteString) {b : Buf} (hr : b ≠ .rbuf) (hm : b ≠ .mbuf) (k : Nat) :
    (s.generateFinish d).buf b k = s.buf b k := by
  rw [State.buf_congr (s.generateFinish_mem d), State.buf_setBytes_other _ _ _ (.inl hm),
    State.buf_setBytes_other _ _ _ (.inl hr)]

/-- A buffer that LOOKUP and GENERATE do not write is written by ZEROIZE in DECODE, or, if it is SEED, by DERIVE's
last step (R36, R39). -/
theorem State.seqStep_buf {s t : State} {b : Buf} (h : s.seqStep = .next t) (hb : b = .seed ∨ b = .ebuf) :
    (∀ k, t.buf b k = s.buf b k) ∨ (b = .seed ∧ s.phase = .kwait ∧ s.hresp.isSome = true) ∨
    (s.phase = .decode ∧ decode s.cmdl = .command .zeroize) := by
  have hother : b ≠ .word ∧ b ≠ .rbuf ∧ b ≠ .mbuf := by rcases hb with rfl | rfl <;> decide
  obtain ⟨hword, hrbuf, hmbuf⟩ := hother
  rcases State.seqStep_cases h with ⟨hp, i, hd, he⟩ | ⟨-, rfl⟩ | ⟨-, d, -, rfl⟩ | ⟨hp, d, hr, rfl⟩ | rfl
  · rcases exec_buf he hword with rfl | hk
    · exact .inr (.inr ⟨hp, hd⟩)
    · exact .inl hk
  · exact .inl fun _ => rfl
  · exact .inl (s.generateFinish_buf d hrbuf hmbuf)
  · rcases hb with rfl | rfl
    · exact .inr (.inl ⟨rfl, hp, by rw [hr]; rfl⟩)
    · refine .inl fun k => ?_
      rw [State.buf_congr (s.deriveFinish_spec d).1, State.buf_setBytes_other _ _ _ (.inl (by decide))]
  · exact .inl fun _ => rfl

/-! ### Every step -/

/-- A byte of EBUF or SEED changes only in a reset, in SEQ's step, or in the host's write, with BUSY = 0, of the word
that holds it, which SEED has none of (R36, R39, R65). -/
theorem step_buf {s t : State} {b : Buf} {k : Nat} (h : step s = .next t) (hk : t.buf b k ≠ s.buf b k) :
    (∃ turn ∈ s.turns.head?, turn.resets = true) ∨ (s.seqToMove ∧ s.dequeue.seqStep = .next t) ∨
    (s.busy = false ∧ b.hostWritable = true ∧ ∃ i v, s.turns.head? = some (.write (b.base + i : Nat) 32 v) ∧
      i < b.span ∧ i ≤ k ∧ k < i + 4) := by
  rcases step_not_seq h with ⟨hreset, -⟩ | hseq | ⟨-, -, hmem | ⟨hb, b', i, v, hw, hturn, hi, hmem⟩⟩
  · exact .inl hreset
  · exact .inr (.inl hseq)
  · exact absurd (State.buf_congr hmem b k) hk
  · by_cases hin : b = b' ∧ i ≤ k ∧ k < i + 4
    · obtain ⟨rfl, hik⟩ := hin
      exact .inr (.inr ⟨hb, hw, i, v, hturn, hi, hik⟩)
    · rw [not_and_or, not_and_or] at hin
      have hother : b ≠ b' ∨ k < i ∨ i + 4 ≤ k := hin.imp_right fun h => by omega
      have hsame : (s.dequeue.setBufWord b' i v).buf b k = s.buf b k := State.buf_setBytes_other b' b _ hother
      exact absurd ((State.buf_congr hmem b k).trans hsame) hk

/-- A planned turn that is not SEQ's always answers. -/
theorem step_not_seq_answers {s : State} {turn : Turn} {rest : List Turn} (ht : s.turns = turn :: rest)
    (hne : turn ≠ .seq) : ∃ t, step s = .next t := by
  rw [step_planned ht]
  cases turn with
  | seq => exact absurd rfl hne
  | read | write | hc | reset => exact ⟨_, rfl⟩

end Sys2Proof.Machine

open Sys2Proof Sys2Proof.Machine

/-- Settles O33: no step but SEQ's or a reset writes ERR, and SEQ writes it only where a command ends. -/
theorem errWrittenOnlyByComplete : Obligations.ErrWrittenOnlyByComplete := by
  unfold Obligations.ErrWrittenOnlyByComplete
  refine ⟨fun s t hstep hbusy => ?_, fun s turn rest ht hne hreset => ?_, fun s t hinv hstep herr => ?_⟩
  · rcases step_not_seq hstep with ⟨-, hb⟩ | ⟨-, hseq⟩ | ⟨he, -⟩
    · rw [hb] at hbusy; cases hbusy
    · rcases State.seqStep_err hseq with he | ⟨-, hb, -⟩
      · exact he
      · rw [hb] at hbusy; cases hbusy
    · exact he
  · obtain ⟨t, hstep⟩ := step_not_seq_answers ht hne
    refine ⟨t, hstep, ?_⟩
    rcases step_not_seq hstep with ⟨⟨turn', hhead, hreset'⟩, -⟩ | ⟨hmove | hmove, -⟩ | ⟨he, -⟩
    · rw [ht] at hhead
      obtain rfl := Option.some.inj hhead
      rw [hreset] at hreset'
      cases hreset'
    · rw [ht] at hmove
      exact absurd (Option.some.inj hmove) hne
    · rw [ht] at hmove
      cases hmove
    · exact he
  · rcases step_not_seq hstep with ⟨hreset, -⟩ | ⟨hmove, hseq⟩ | ⟨he, -⟩
    · exact .inl hreset
    · rcases State.seqStep_err hseq with he | ⟨hp, hdone⟩
      · exact absurd he herr
      · exact .inr ⟨hmove, hinv.busyIff.2 hp, hdone⟩
    · exact absurd he herr

/-- Settles O52: SEQ's steps write RESULT, SEED and EBUF as listed, and of the host's writes only those of EBUF's
words reach any of the three. -/
theorem onlyListedWritersWrite : Obligations.OnlyListedWritersWrite := by
  unfold Obligations.OnlyListedWritersWrite
  refine fun s t hstep => ⟨fun hresult => ?_, fun ⟨k, hk⟩ => ?_, fun k hk => ?_⟩
  · rcases step_not_seq hstep with ⟨hreset, -⟩ | ⟨hmove, hseq⟩ | ⟨-, hr, -⟩
    · exact .inl hreset
    · exact .inr ⟨hmove, (State.seqStep_result hseq).resolve_left hresult⟩
    · exact absurd hr hresult
  · rcases step_buf hstep hk with hreset | ⟨hmove, hseq⟩ | ⟨-, hw, -⟩
    · exact .inl hreset
    · rcases State.seqStep_buf hseq (.inl rfl) with hsame | ⟨-, hwait⟩ | hzeroize
      · exact absurd (hsame k) hk
      · exact .inr (.inl ⟨hmove, hwait⟩)
      · exact .inr (.inr ⟨hmove, hzeroize⟩)
    · cases hw
  · rcases step_buf hstep hk with hreset | ⟨hmove, hseq⟩ | ⟨hb, -, i, v, hturn, hi, hik⟩
    · exact .inl hreset
    · rcases State.seqStep_buf hseq (.inr rfl) with hsame | ⟨hseed, -⟩ | hzeroize
      · exact absurd (hsame k) hk
      · cases hseed
      · exact .inr (.inr ⟨hmove, hzeroize⟩)
    · have hoff : Buf.ebuf.base = 0x200 ∧ Buf.ebuf.span = 0x20 := by decide
      exact .inr (.inl ⟨hb, _, v, hturn, by omega⟩)

end

section
/-! PROOFS. The registers of the host's window (10_state.md R20 to R35, R45, R47): a word access at an offset reads
or writes the location the map gives, and what the registers read as. -/

namespace Sys2Proof.Machine

/-! ### Word accesses at an offset of the map (R20) -/

/-- A read that the spec defines, with BUSY = 0 or of a location readable while busy, returns the location's value
and changes nothing else (R66, R67). -/
theorem State.busRead_at (s : State) {off : Nat} {l : Loc} (hl : locate off = l)
    (hr : s.busy = false ∨ l.readableBusy = true) (h : off < 4096 := by decide) (h4 : off % 4 = 0 := by decide) :
    s.busRead (off : Int) 32 = { s with resp := .data (s.readLoc l) } := by
  rw [State.busRead_word s h h4, hl]
  rcases hr with hb | hr
  · exact State.hostRead_idle l hb
  · simp [State.hostRead, hr]

/-- A write does what the location's rule says. -/
theorem State.busWrite_at (s : State) {off : Nat} {l : Loc} (v : Word) (hl : locate off = l)
    (h : off < 4096 := by decide) (h4 : off % 4 = 0 := by decide) :
    s.busWrite (off : Int) 32 v = { s.writeLoc v l with resp := .accepted } := by
  rw [State.busWrite_word s v h h4, hl]
  rfl

section RegisterWrites

variable (s : State) (v : Word)

theorem State.busWrite_ctrl : s.busWrite 0x004 32 v = { s.writeCtrl v with resp := .accepted } :=
  s.busWrite_at v (off := 0x004) rfl

theorem State.busWrite_status : s.busWrite 0x008 32 v = { s.writeStatus v with resp := .accepted } :=
  s.busWrite_at v (off := 0x008) rfl

theorem State.busWrite_cmd : s.busWrite 0x00C 32 v = { s.writeCmd v with resp := .accepted } :=
  s.busWrite_at v (off := 0x00C) rfl

theorem State.writeCtrl_enable {v : Word} (h : v.getLsbD 1 = false) : s.writeCtrl v = { s with ie := v.getLsbD 0 } := by
  rw [State.writeCtrl, h]
  rfl

theorem State.writeCtrl_reset {v : Word} (h : v.getLsbD 1 = true) : s.writeCtrl v = s.resetAll := by
  rw [State.writeCtrl, h]
  rfl

theorem State.writeCmd_idle {s : State} (h : s.phase = .idle) :
    s.writeCmd v = { s with cmdl := v, busy := true, done := false, phase := .decode } := if_pos h

theorem State.writeCmd_not_idle {s : State} (h : s.phase ≠ .idle) : s.writeCmd v = { s with ovr := true } := if_neg h

end RegisterWrites

/-! ### Register layouts -/

theorem flagBit_le (b : Bool) : flagBit b ≤ 1 := by cases b <;> decide

theorem ErrCode.code_lt (e : ErrCode) : e.code < 16 := by cases e <;> decide

theorem Phase.code_lt (p : Phase) : p.code < 8 := by cases p <;> decide

/-- STATUS as a number (R24). -/
theorem State.statusWord_toNat (s : State) : s.statusWord.toNat =
    flagBit s.busy + flagBit s.done * 2 + flagBit s.ovr * 4 + s.err.code * 16 + s.phase.code * 256 := by
  have hb := flagBit_le s.busy
  have hd := flagBit_le s.done
  have ho := flagBit_le s.ovr
  have he := s.err.code_lt
  have hp := s.phase.code_lt
  rw [State.statusWord, BitVec.toNat_ofNat, Nat.mod_eq_of_lt (by omega)]

/-- A word whose number has a flag as its binary digit i has that flag as bit i. -/
theorem getLsbD_of_digit {w : Word} {i : Nat} {b : Bool} (h : w.toNat / 2 ^ i % 2 = flagBit b) : w.getLsbD i = b := by
  rw [← BitVec.testBit_toNat, Nat.testBit_eq_decide_div_mod_eq, h]
  cases b <;> rfl

/-- The fields of STATUS (R24). -/
theorem State.statusWord_layout (s : State) :
    s.statusWord.getLsbD 0 = s.busy ∧ s.statusWord.getLsbD 1 = s.done ∧ s.statusWord.getLsbD 2 = s.ovr ∧
    s.statusWord.getLsbD 3 = false ∧ s.statusWord.toNat / 16 % 16 = s.err.code ∧
    s.statusWord.toNat / 256 = s.phase.code := by
  have hb := flagBit_le s.busy
  have hd := flagBit_le s.done
  have ho := flagBit_le s.ovr
  have he := s.err.code_lt
  have hw := s.statusWord_toNat
  have h3 : s.statusWord.toNat / 2 ^ 3 % 2 = flagBit false := by rw [hw, show flagBit false = 0 from rfl]; omega
  exact ⟨getLsbD_of_digit (by omega), getLsbD_of_digit (by omega), getLsbD_of_digit (by omega), getLsbD_of_digit h3,
    by omega, by omega⟩

/-- The fields of BR_STATE (R28). -/
theorem State.brStateWord_layout (s : State) :
    s.brStateWord.toNat % 256 = s.rlen.val ∧ s.brStateWord.toNat / 256 % 256 = s.cur.val ∧
    s.brStateWord.toNat / 65536 = s.nv.val := by
  have hw : s.brStateWord.toNat = s.rlen.val + s.cur.val * 2 ^ 8 + s.nv.val * 2 ^ 16 := Nat.mod_eq_of_lt (by omega)
  rw [hw]
  omega

/-- ACC is its three words (R29, R70). -/
theorem acc_toNat_words (a : BitVec 72) : a.toNat = (a.extractLsb' 0 32).toNat +
    (a.extractLsb' 32 32).toNat * 2 ^ 32 + ((a.extractLsb' 64 8).setWidth 32).toNat * 2 ^ 64 := by
  have ha := a.isLt
  simp only [BitVec.extractLsb'_toNat, BitVec.toNat_setWidth, Nat.shiftRight_eq_div_pow]
  omega

/-- RESULT is its two words, the low one first (R27). -/
theorem result_words (r : BitVec 64) : r.extractLsb' 32 32 ++ r.extractLsb' 0 32 = r := by
  ext i hi
  rw [BitVec.getElem_append]
  split
  · simp [BitVec.getLsbD_eq_getElem hi]
  · simp [show 32 + (i - 32) = i by omega, BitVec.getLsbD_eq_getElem hi]

theorem State.readLoc_widx_toNat (s : State) (j : Fin 24) :
    (s.readLoc (.widx j.val)).toNat = s.widx[j].toNat := by
  have hlt : s.widx[j.val].toNat < 2 ^ 32 := lt_trans s.widx[j.val].isLt (by decide)
  simpa [State.readLoc] using hlt

/-! ### The window after reset (R47) -/

theorem State.buf_reset (b : Buf) (k : Nat) : State.reset.buf b k = 0 := ite_self _

/-- After reset every location but ID reads 0 (R47). -/
theorem State.readLoc_reset {l : Loc} (h : l ≠ .id) : State.reset.readLoc l = 0 := by
  cases l with
  | id => exact absurd rfl h
  | widx j =>
    by_cases hj : j < 24 <;> simp [State.readLoc, State.reset, hj]
  | buf b i =>
    simp only [State.readLoc, State.bufWord, State.buf_reset]
    decide
  | _ => decide

/-- Only offset 0x000 is ID. -/
theorem locate_eq_id {off : Nat} (h : locate off = .id) : off = 0x000 := by
  by_contra hne
  revert h
  by_cases h1 : off < 0x100
  · rw [locate, if_pos h1, locateReg, if_neg hne]
    repeat' first | exact Loc.noConfusion | apply ite_loc_ne
  · rw [locate, if_neg h1]
    refine ite_loc_ne Loc.noConfusion ?_
    unfold locateBuf
    repeat' first | exact Loc.noConfusion | apply ite_loc_ne

/-! ### Command words -/

/-- The fields of the word of a command with an operand (R80, R87). -/
theorem cmdWord_fields {op v : Nat} (ho : op < 256) (hv : v < 2048) :
    (rsvdField (cmdWord op v)).toNat = 0 ∧ (opField (cmdWord op v)).toNat = op ∧
    (argField (cmdWord op v)).toNat = v := by
  rw [rsvdField_toNat, opField_toNat, argField_toNat, cmdWord_toNat ho hv]
  omega

/-- A well-formed command's word decodes to that command (R87). -/
theorem decode_encode {i : Instr} (h : i.wellFormed = true) : decode (encode i) = .command i := by
  cases i with
  | loadbr n =>
    obtain ⟨hr, ho, ha⟩ := cmdWord_fields (op := 0x01) (by decide) (of_decide_eq_true h : n < 2048)
    simp [encode, decode_fields, hr, ho, ha]
  | rdbits c =>
    obtain ⟨hr, ho, ha⟩ := cmdWord_fields (op := 0x02) (by decide) (of_decide_eq_true h : c < 2048)
    simp [encode, decode_fields, hr, ho, ha]
  | lookup j =>
    obtain ⟨hr, ho, ha⟩ := cmdWord_fields (op := 0x03) (by decide) (of_decide_eq_true h : j < 2048)
    simp [encode, decode_fields, hr, ho, ha]
  | generate b =>
    obtain ⟨hr, ho, ha⟩ := cmdWord_fields (op := 0x04) (by decide) (of_decide_eq_true h : b < 2048)
    simp [encode, decode_fields, hr, ho, ha]
  | derive => decide
  | zeroize => decide

end Sys2Proof.Machine

open Sys2Proof Sys2Proof.Machine

/-- Settles O51: each offset of R20 leads to its register, whose word has the layout's fields. -/
theorem registerLayouts : Obligations.RegisterLayouts := by
  unfold Obligations.RegisterLayouts
  intro s
  refine ⟨⟨_, s.busRead_at (off := 0x008) rfl (.inr rfl), s.statusWord_layout⟩,
    fun hb => ⟨?_, ?_, ?_, ?_, ?_, fun j => ?_⟩⟩
  · exact ⟨_, _, s.busRead_at (off := 0x010) rfl (.inl hb), s.busRead_at (off := 0x014) rfl (.inl hb),
      result_words s.result⟩
  · exact ⟨_, s.busRead_at (off := 0x018) rfl (.inl hb), s.brStateWord_layout⟩
  · exact ⟨_, _, _, s.busRead_at (off := 0x01C) rfl (.inl hb), s.busRead_at (off := 0x020) rfl (.inl hb),
      s.busRead_at (off := 0x024) rfl (.inl hb), acc_toNat_words s.acc⟩
  · exact ⟨_, s.busRead_at (off := 0x030) rfl (.inl hb), Nat.mod_eq_of_lt (by omega)⟩
  · exact ⟨_, s.busRead_at (off := 0x034) rfl (.inl hb), Nat.mod_eq_of_lt (by omega)⟩
  · have hloc : locate (0x100 + 4 * j.val) = .widx j.val := by
      rw [locate_widx (by omega) (by omega), Nat.add_sub_cancel_left, Nat.mul_div_cancel_left _ (by decide)]
    exact ⟨_, s.busRead_at hloc (.inl hb) (by omega) (by omega), s.readLoc_widx_toNat j⟩

/-- Settles O7: the placed word decodes to the command it encodes, and SEQ's turn is next. -/
theorem fetchWordRunsCommand : Obligations.FetchWordRunsCommand := by
  unfold Obligations.FetchWordRunsCommand
  intro s i hi
  have hword : BitVec.ofNat 32 ((encode i).toNat % 2 ^ 32) = encode i := by
    rw [Nat.mod_eq_of_lt (encode i).isLt, BitVec.ofNat_toNat, BitVec.setWidth_eq]
  rw [State.withFetchWord, hword, step_planned rfl, State.take, State.seqStep_decode rfl, State.decodeStep,
    decode_encode hi]

/-- Settles O35: each bus write named sets or clears IE or DONE, and a reset clears both. -/
theorem irqFollowsEnableAndDone : Obligations.IrqFollowsEnableAndDone := by
  unfold Obligations.IrqFollowsEnableAndDone
  refine ⟨fun _ => rfl, fun s _ => Bool.and_true s.ie, fun s => ?_, fun s v hv => ?_, fun s v hv => ?_,
    fun s v hp => ?_, fun _ => rfl⟩
  · rw [State.busWrite_ctrl, State.writeCtrl_enable s (by decide)]
    exact Bool.true_and s.done
  · simp [State.busWrite_status, State.writeStatus, State.irq, hv]
  · cases h1 : v.getLsbD 1
    · rw [State.busWrite_ctrl, State.writeCtrl_enable s h1, hv]
      rfl
    · rw [State.busWrite_ctrl, State.writeCtrl_reset s h1]
      rfl
  · rw [State.busWrite_cmd, State.writeCmd_idle v hp]
    exact Bool.and_false s.ie

/-- Settles O39: ID's location reads its constant in every phase and ignores writes. -/
theorem idIsConstant : Obligations.IdIsConstant := by
  unfold Obligations.IdIsConstant
  exact ⟨fun s => s.busRead_at (off := 0x000) rfl (.inr rfl),
    fun s v => s.busWrite_at v (off := 0x000) rfl, by decide, by decide, by decide⟩

/-- Settles O40: a write of CTRL is an enable or the reset of the whole block, by its bit 1. -/
theorem ctrlWriteEnablesOrResets : Obligations.CtrlWriteEnablesOrResets := by
  unfold Obligations.CtrlWriteEnablesOrResets
  refine ⟨fun s => ?_, fun s v hv => ?_, fun s v hv => ?_⟩
  · have hword : s.ctrlWord = if s.ie then 1 else 0 := by
      unfold State.ctrlWord
      cases s.ie <;> rfl
    rw [← hword]
    exact s.busRead_at (off := 0x004) rfl (.inr rfl)
  · rw [State.busWrite_ctrl, State.writeCtrl_enable s hv]
  · rw [State.busWrite_ctrl, State.writeCtrl_reset s hv]
    rfl

/-- Settles O41: clearing a flag where a bit is 1 is masking it with the bit's complement. -/
theorem statusWriteClearsDoneAndOvr : Obligations.StatusWriteClearsDoneAndOvr := by
  unfold Obligations.StatusWriteClearsDoneAndOvr
  intro s v
  have hmask (a b : Bool) : (a && !b) = if b then false else a := by cases a <;> cases b <;> rfl
  rw [State.busWrite_status, State.writeStatus, hmask, hmask]

/-- Settles O42: a write of CMD starts a command in IDLE and sets OVR otherwise; CMDL is readable in every phase. -/
theorem cmdWriteStartsCommand : Obligations.CmdWriteStartsCommand := by
  unfold Obligations.CmdWriteStartsCommand
  refine ⟨fun s v hp => ?_, fun s v hp => ?_, fun s => ?_, rfl⟩
  · rw [State.busWrite_cmd, State.writeCmd_idle v hp]
  · rw [State.busWrite_cmd, State.writeCmd_not_idle v hp]
  · exact s.busRead_at (off := 0x00C) rfl (.inr rfl)

/-- Settles O43: with BUSY = 0 the two length registers are writable and readable, each sixteen bits wide. -/
theorem lengthRegistersHoldSixteenBits : Obligations.LengthRegistersHoldSixteenBits := by
  unfold Obligations.LengthRegistersHoldSixteenBits
  intro s v hb
  refine ⟨?_, ?_, ?_, ?_⟩
  · rw [← BitVec.setWidth_eq_extractLsb' (by decide)]
    have h := s.busWrite_at v (off := 0x028) rfl
    rwa [show locate 0x028 = .mlen from rfl, State.writeLoc, State.unlessBusy_idle _ hb] at h
  · rw [← BitVec.setWidth_eq_extractLsb' (by decide)]
    have h := s.busWrite_at v (off := 0x02C) rfl
    rwa [show locate 0x02C = .plen from rfl, State.writeLoc, State.unlessBusy_idle _ hb] at h
  · rw [BitVec.ofNat_toNat]
    exact s.busRead_at (off := 0x028) rfl (.inl hb)
  · rw [BitVec.ofNat_toNat]
    exact s.busRead_at (off := 0x02C) rfl (.inl hb)

/-- Settles O53: every location but ID, which stands at offset 0 alone, reads 0 after reset. -/
theorem resetValues : Obligations.ResetValues := by
  unfold Obligations.ResetValues
  refine ⟨fun off hoff h4 => ?_, State.buf_reset, rfl, rfl, rfl, rfl, rfl, rfl, rfl, rfl, rfl, rfl, rfl, rfl, rfl, rfl,
    rfl, rfl, rfl, rfl, rfl, rfl⟩
  rw [State.busRead_at _ rfl (.inl rfl) hoff h4]
  by_cases h0 : off = 0
  · rw [h0]
    rfl
  · rw [if_neg h0, State.readLoc_reset (mt locate_eq_id h0)]

end

section
/-! PROOFS. The host's memory window (20_memory.md R61 to R75): which accesses reach a location, what a write does to
each kind of location while BUSY is 0 and while it is 1, and which locations stand at R20's offsets. -/

namespace Sys2Proof.Machine

/-! ### Accesses (R61, R62) -/

/-- An access that starts outside the window is none (R62). -/
theorem State.access_outside {off : Int} (s : State) (width : Nat) (v : Word) (h : inWindow off = false) :
    s.busRead off width = s ∧ s.busWrite off width v = s := by
  simp [State.busRead, State.busWrite, h]

/-- A misaligned or narrow access in the window is a bus error (R62). -/
theorem State.access_bad {off : Int} {width : Nat} (s : State) (v : Word) (h : inWindow off = true)
    (ha : wordAccess off width = false) :
    s.busRead off width = { s with resp := .busError } ∧ s.busWrite off width v = { s with resp := .busError } := by
  simp [State.busRead, State.busWrite, h, ha]

/-- Where a read leads depends on its offset and its width alone: nowhere, to a bus error, or to a location. -/
theorem State.busRead_cases (off : Int) (width : Nat) :
    (∀ s : State, s.busRead off width = s) ∨ (∀ s : State, s.busRead off width = { s with resp := .busError }) ∨
    ∃ l, ∀ s : State, s.busRead off width = s.hostRead l := by
  cases h : inWindow off with
  | false => exact .inl fun s => (s.access_outside width 0 h).1
  | true =>
    cases ha : wordAccess off width with
    | false => exact .inr (.inl fun s => (s.access_bad 0 h ha).1)
    | true => exact .inr (.inr ⟨locate off.toNat, fun s => by simp [State.busRead, h, ha]⟩)

/-- A bus address below BASE or past BASE + 0xFFF is outside the window (R71). -/
theorem inWindow_address {addr : Nat} (h : addr < Config.base ∨ Config.base + 4096 ≤ addr) :
    inWindow ((addr : Int) - Config.base) = false :=
  decide_eq_false (by simp only [Config.windowBytes]; omega)

/-! ### Reads while BUSY = 1 (R66) -/

/-- What a read returns while BUSY = 1 depends on CTRL, STATUS, CMDL and the draws alone. -/
theorem State.hostRead_resp_congr {s s' : State} (l : Loc) (hb : s.busy = true) (hb' : s'.busy = true)
    (hctrl : s.ctrlWord = s'.ctrlWord) (hstatus : s.statusWord = s'.statusWord) (hcmdl : s.cmdl = s'.cmdl)
    (hdraws : s.draws = s'.draws) : (s.hostRead l).resp = (s'.hostRead l).resp := by
  cases hr : l.readableBusy with
  | false => simp [State.hostRead, hb, hb', hr, hdraws]
  | true =>
    have hsame : s.readLoc l = s'.readLoc l := by
      cases l with
      | ctrl => exact hctrl
      | status => exact hstatus
      | cmd => exact hcmdl
      | id | reserved => rfl
      | _ => cases hr
    simp [State.hostRead, hr, hsame]

/-! ### Writes by kind of location (R64, R65) -/

/-- The locations whose writes are ignored in every phase (R64). -/
def Loc.ignoresWrites : Loc → Bool
  | .ctrl | .status | .cmd | .mlen | .plen => false
  | .buf b _ => !b.hostWritable
  | .id | .resultLo | .resultHi | .brState | .acc0 | .acc1 | .acc2 | .wcount | .wlen | .widx _ | .reserved => true

/-- The locations whose writes are lost while BUSY = 1 (R65). -/
def Loc.lostWhileBusy : Loc → Bool
  | .cmd | .mlen | .plen => true
  | .buf b _ => b.hostWritable
  | .ctrl | .status => false
  | .id | .resultLo | .resultHi | .brState | .acc0 | .acc1 | .acc2 | .wcount | .wlen | .widx _ | .reserved => false

theorem State.writeLoc_ignored (s : State) (v : Word) {l : Loc} (h : l.ignoresWrites = true) : s.writeLoc v l = s := by
  cases l with
  | ctrl | status | cmd | mlen | plen => cases h
  | buf b i =>
    cases b with
    | word | seed => rfl
    | ebuf | rbuf | pass | mbuf => cases h
  | _ => rfl

/-- A write to a buffer the host may write sets its word, unless BUSY = 1 turns it away (R63, R65). -/
theorem State.writeLoc_buf (s : State) (v : Word) {b : Buf} (i : Nat) (h : b.hostWritable = true) :
    s.writeLoc v (.buf b i) = s.unlessBusy (s.setBufWord b i v) := by
  cases b with
  | word | seed => cases h
  | ebuf | rbuf | pass | mbuf => rfl

theorem State.writeLoc_lost {s : State} (v : Word) {l : Loc} (hl : l.lostWhileBusy = true) (hb : s.busy = true)
    (hp : s.phase ≠ .idle) : s.writeLoc v l = { s with ovr := true } := by
  cases l with
  | cmd => exact State.writeCmd_not_idle v hp
  | mlen | plen => exact State.unlessBusy_busy _ hb
  | buf b i => rw [State.writeLoc_buf s v i hl, State.unlessBusy_busy _ hb]
  | _ => cases hl

/-! ### The map (R20) -/

/-- A buffer stands in the window at a multiple of 4, and its span holds all of it. -/
theorem Buf.placed (b : Buf) : b.base % 4 = 0 ∧ b.size ≤ b.span ∧ b.base + b.span ≤ 4096 := by cases b <;> decide

theorem locate_covered {b : Buf} {off : Nat} (h : b.base ≤ off) (h' : off < b.base + b.span) :
    locate off = .buf b (off - b.base) := by
  have hloc := locate_buf (b := b) (i := off - b.base) (by omega)
  rwa [Nat.add_sub_cancel' h] at hloc

/-- The offsets R20 leaves to no register and no buffer are reserved. -/
theorem locate_reserved {off : Nat}
    (h : (0x038 ≤ off ∧ off < 0x100) ∨ (0x160 ≤ off ∧ off < 0x200) ∨ (0x220 ≤ off ∧ off < 0x240) ∨
      (0x264 ≤ off ∧ off < 0x280) ∨ (0x290 ≤ off ∧ off < 0x300) ∨ (0x340 ≤ off ∧ off < 0x400) ∨
      (0x500 ≤ off ∧ off < 0x800) ∨ (0xA00 ≤ off ∧ off < 0x1000)) : locate off = .reserved := by
  rcases h with ⟨h, h'⟩ | h
  · exact locate_after_wlen h h'
  · refine locate_uncovered (by omega) fun b => ?_
    cases b <;> simp only [Buf.covers, Buf.base, Buf.span, Buf.size, Config.ebufBytes, Config.rbufBytes,
      Config.romWordMax, Config.seedBytes, Config.passBytes, Config.mbufBytes] <;> omega

/-- ID, RESULT, BR_STATE, ACC, WCOUNT, WLEN, WIDX, WORD and SEED are read-only (R20). -/
theorem locate_ignoresWrites {off : Nat} (h4 : off % 4 = 0)
    (h : off = 0x000 ∨ (0x010 ≤ off ∧ off < 0x028) ∨ off = 0x030 ∨ off = 0x034 ∨ (0x100 ≤ off ∧ off < 0x160) ∨
      (0x280 ≤ off ∧ off < 0x290) ∨ (0x300 ≤ off ∧ off < 0x340)) : (locate off).ignoresWrites = true := by
  rcases h with rfl | h | rfl | rfl | ⟨h, h'⟩ | ⟨h, h'⟩ | ⟨h, h'⟩
  · rfl
  · have hoff : off = 0x010 ∨ off = 0x014 ∨ off = 0x018 ∨ off = 0x01C ∨ off = 0x020 ∨ off = 0x024 := by omega
    rcases hoff with rfl | rfl | rfl | rfl | rfl | rfl <;> rfl
  · rfl
  · rfl
  · rw [locate_widx h h']; rfl
  · rw [locate_covered (b := .word) h h']; rfl
  · rw [locate_covered (b := .seed) h h']; rfl

/-- CMD, MLEN, PLEN and the buffers the host may write lose their writes while BUSY = 1 (R65). -/
theorem locate_lostWhileBusy {off : Nat}
    (h : off = 0x00C ∨ off = 0x028 ∨ off = 0x02C ∨ (0x200 ≤ off ∧ off < 0x220) ∨ (0x240 ≤ off ∧ off < 0x264) ∨
      (0x400 ≤ off ∧ off < 0x500) ∨ (0x800 ≤ off ∧ off < 0xA00)) :
    off < 4096 ∧ (locate off).lostWhileBusy = true := by
  refine ⟨by omega, ?_⟩
  rcases h with rfl | rfl | rfl | ⟨h, h'⟩ | ⟨h, h'⟩ | ⟨h, h'⟩ | ⟨h, h'⟩
  · rfl
  · rfl
  · rfl
  · rw [locate_covered (b := .ebuf) h h']; rfl
  · rw [locate_covered (b := .rbuf) h h']; rfl
  · rw [locate_covered (b := .pass) h h']; rfl
  · rw [locate_covered (b := .mbuf) h h']; rfl

/-! ### Byte lanes (R63) -/

/-- A buffer's word is its four bytes, the first the least significant (R63). -/
theorem State.bufWord_toNat (s : State) (b : Buf) (i : Nat) : (s.bufWord b i).toNat =
    (s.buf b i).toNat + (s.buf b (i + 1)).toNat * 2 ^ 8 + (s.buf b (i + 2)).toNat * 2 ^ 16 +
      (s.buf b (i + 3)).toNat * 2 ^ 24 := by
  have h0 := (s.buf b i).isLt
  have h1 := (s.buf b (i + 1)).isLt
  have h2 := (s.buf b (i + 2)).isLt
  simp only [State.bufWord, BitVec.toNat_append]
  rw [← Nat.shiftLeft_add_eq_or_of_lt h2, ← Nat.shiftLeft_add_eq_or_of_lt h1, ← Nat.shiftLeft_add_eq_or_of_lt h0]
  simp only [Nat.shiftLeft_eq]
  omega

/-- A byte string runs out at the buffer's end: no address past it is written (R63). -/
theorem State.read_setBytes_past_end (b : Buf) (l : ByteString) : ∀ {s : State} {i a : Nat}, b.base + b.size ≤ a →
    Memory.read (s.setBytes b i l).mem a = Memory.read s.mem a := by
  induction l with
  | nil => intros; rfl
  | cons v l ih =>
    intro s i a h
    rw [State.setBytes, ih h]
    by_cases hi : i < b.size
    · exact State.read_setBuf_outside v (by omega)
    · rw [State.setBuf, if_neg hi]

/-- A word stored in a buffer sets each of its bytes that exists from its lane (R63). -/
theorem State.buf_setBufWord {s : State} {b : Buf} {i k : Nat} (v : Word) (hw : Memory.wf s.mem = true) (hk : k < 4)
    (hs : i + k < b.size) : (s.setBufWord b i v).buf b (i + k) = laneByte v k := by
  rw [State.setBufWord, State.buf_setBytes_same b _ hw hk hs]
  interval_cases k <;> rfl

/-- A word stored in a buffer reaches no address but its bytes that exist (R63). -/
theorem State.read_setBufWord_outside {s : State} {b : Buf} {i a : Nat} (v : Word)
    (h : ¬ (b.base + i ≤ a ∧ a < b.base + i + 4 ∧ a < b.base + b.size)) :
    Memory.read (s.setBufWord b i v).mem a = Memory.read s.mem a := by
  by_cases ha : b.base + b.size ≤ a
  · exact State.read_setBytes_past_end b _ ha
  · exact State.read_setBytes_outside b _ (by simp only [List.length_cons, List.length_nil]; omega)

/-! ### SEQ and HC with BUSY = 0 (R186, R201) -/

theorem State.seqStep_idle {s : State} (h : s.phase = .idle) : s.seqStep = .next s :=
  State.seqStep_disabled (by rw [State.seqEnabled, h])

theorem State.hcStep_quiet {s : State} (h : s.hreq = none) : s.hcStep = s := by
  rw [State.hcStep, h]

end Sys2Proof.Machine

open Sys2Proof Sys2Proof.Machine

/-- Settles O34: with BUSY = 0 the phase is IDLE and no request is pending, so neither agent has a step. -/
theorem nothingMovesAfterCompletion : Obligations.NothingMovesAfterCompletion := by
  unfold Obligations.NothingMovesAfterCompletion
  intro s rest hinv hb hturns
  obtain ⟨hidle, hnone, -⟩ := hinv.idle_of_not_busy hb
  rcases hturns with ht | ht <;> rw [step_planned ht, State.take]
  · exact State.seqStep_idle hidle
  · exact congrArg Host.Outcome.next (State.hcStep_quiet hnone)

/-- Settles O44: an offset in the window fails the word test, and an address outside it fails the window test. -/
theorem badAccessesChangeNothing : Obligations.BadAccessesChangeNothing := by
  unfold Obligations.BadAccessesChangeNothing
  refine ⟨fun s off width v h h' hbad => ?_, fun s rest addr width v haddr hturns => ?_⟩
  · have hin : inWindow off = true := decide_eq_true (by simp only [Config.windowBytes]; omega)
    have hword : wordAccess off width = false := decide_eq_false (by omega)
    exact s.access_bad v hin hword
  · obtain ⟨hread, hwrite⟩ :=
      State.access_outside { s with turns := rest } width v (inWindow_address haddr)
    rcases hturns with ht | ht <;> rw [step_planned ht]
    · exact congrArg Host.Outcome.next hread
    · exact congrArg Host.Outcome.next hwrite

/-- Settles O45: the offset leads to the buffer's word, whose four lanes are its bytes. -/
theorem bufferLanesAreLittleEndian : Obligations.BufferLanesAreLittleEndian := by
  unfold Obligations.BufferLanesAreLittleEndian
  intro s b i v hb hw h4 hi
  obtain ⟨hbase, hspan, hwindow⟩ := b.placed
  have hloc : locate (b.base + i) = .buf b i := locate_buf (by omega)
  refine ⟨⟨s.bufWord b i, s.busRead_at hloc (.inl hb) (by omega) (by omega), s.bufWord_toNat b i⟩,
    fun k hk => s.buf_of_ge hk, fun hmem => ⟨_, rfl, ?_⟩⟩
  have hwritable : b.hostWritable = true := by
    cases b with
    | ebuf | rbuf | pass | mbuf => rfl
    | word | seed => exact absurd hmem (by decide)
  rw [s.busWrite_at v hloc (by omega) (by omega), State.writeLoc_buf s v i hwritable, State.unlessBusy_idle _ hb]
  refine ⟨fun k hk hs => ?_, fun a ha => State.read_setBufWord_outside v ha, ?_⟩
  · exact (congrArg BitVec.toNat (State.buf_setBufWord v hw hk hs)).trans (laneByte_toNat v k)
  · conv_lhs => rw [State.setBufWord, State.setBytes_only_mem]
    rfl

/-- Settles O46: the map gives those offsets locations whose writes are ignored in every phase. -/
theorem reservedAndReadOnlyIgnoreWrites : Obligations.ReservedAndReadOnlyIgnoreWrites := by
  unfold Obligations.ReservedAndReadOnlyIgnoreWrites
  refine fun s off v h4 => ⟨fun h => ?_, fun h => ?_⟩
  · have hloc := locate_reserved h
    exact ⟨s.busRead_at hloc (.inr rfl) (by omega) h4, s.busWrite_at v hloc (by omega) h4⟩
  · rw [s.busWrite_at v rfl (by omega) h4, s.writeLoc_ignored v (locate_ignoresWrites h4 h)]

/-- Settles O47: the map gives those offsets locations whose writes are lost while BUSY = 1. -/
theorem writesWhileBusyAreLost : Obligations.WritesWhileBusyAreLost := by
  unfold Obligations.WritesWhileBusyAreLost
  intro s off v hb hp h4 h
  obtain ⟨hwindow, hlost⟩ := locate_lostWhileBusy h
  rw [s.busWrite_at v rfl hwindow h4, State.writeLoc_lost v hlost hb hp]

/-- Settles O48: a read leads both states to the same location, and what it returns there depends on the fields
they share. -/
theorem readsWhileBusyRevealNoData : Obligations.ReadsWhileBusyRevealNoData := by
  unfold Obligations.ReadsWhileBusyRevealNoData
  intro s s' off width hb hb' hie hdone hovr herr hphase hcmdl hresp hdraws
  rcases State.busRead_cases off width with h | h | ⟨l, h⟩ <;> rw [h, h]
  · exact hresp
  · have hctrl : s.ctrlWord = s'.ctrlWord := by rw [State.ctrlWord, State.ctrlWord, hie]
    have hstatus : s.statusWord = s'.statusWord := by
      rw [State.statusWord, State.statusWord, hb, hb', hdone, hovr, herr, hphase]
    exact State.hostRead_resp_congr l hb hb' hctrl hstatus hcmdl hdraws

/-- Settles O50: while BUSY = 1 a host turn is a read, or a write that touches flags alone. -/
theorem hostCannotDisturbRunningCommand : Obligations.HostCannotDisturbRunningCommand := by
  unfold Obligations.HostCannotDisturbRunningCommand
  intro s turn rest hb hp hturns hhost hreset
  rw [step_planned hturns]
  cases turn with
  | seq | hc | reset => cases hhost
  | read off width =>
    refine ⟨_, rfl, ?_⟩
    rw [State.busRead_only]
  | write off width v =>
    refine ⟨_, rfl, ?_⟩
    rcases State.busWrite_cases { s with turns := rest } off width v with ⟨hr, -⟩ | ⟨ie, done, ovr, resp, -, he⟩ |
      ⟨hidle, -⟩ | ⟨hnot, -⟩ | ⟨hnot, -⟩
    · exact Bool.noConfusion (hreset.symm.trans hr)
    · rw [he]
    · exact absurd hidle hp
    · exact Bool.noConfusion (hnot.symm.trans hb)
    · exact Bool.noConfusion (hnot.symm.trans hb)

/-- Settles O49: only a read at a location draws, and with BUSY = 0 that one does not. -/
theorem readsHaveNoSideEffect : Obligations.ReadsHaveNoSideEffect := by
  unfold Obligations.ReadsHaveNoSideEffect
  refine fun s off width => ⟨s.busRead_only off width, fun hb => ?_⟩
  rcases State.busRead_cases off width with h | h | ⟨l, h⟩ <;> rw [h]
  rw [State.hostRead_idle l hb]

end

section
/-! PROOFS. Command words (30_encoding.md R80 to R87): a word that decodes to a command is the one its fields write,
no word selects two rows of the opcode map, the decoder answers `illegal` exactly for the words R84 lists, and every
step answers. -/

namespace Sys2Proof.Machine

/-! ### From a word back to its command (R83, R87) -/

/-- A word whose RSVD field is 0 is written from its opcode and its operand. -/
theorem cmdWord_of_fields {w : Word} {op : Nat} (hr : (rsvdField w).toNat = 0) (ho : (opField w).toNat = op) :
    cmdWord op (argField w).toNat = w := by
  subst ho
  apply BitVec.eq_of_toNat_eq
  rw [cmdWord_toNat (opField w).isLt (argField w).isLt, word_toNat_fields w, hr]
  omega

/-- What the ARG field holds fits it. -/
theorem fitsArg_argField (w : Word) : fitsArg (argField w).toNat = true := decide_eq_true (argField w).isLt

/-- Each row's command is well formed and is written as the word that selected the row. -/
theorem encode_of_decode {w : Word} {i : Instr} (h : decode w = .command i) : i.wellFormed = true ∧ encode i = w := by
  rw [decode_fields] at h
  split at h
  · cases h
  · rename_i hr
    rw [not_not] at hr
    split at h
    case h_1 ho | h_2 ho | h_3 ho | h_4 ho =>
      obtain rfl := Decoded.command.inj h
      exact ⟨fitsArg_argField w, cmdWord_of_fields hr ho⟩
    case h_5 ho | h_6 ho =>
      split at h
      · rename_i ha
        obtain rfl := Decoded.command.inj h
        refine ⟨rfl, ?_⟩
        have hw := cmdWord_of_fields hr ho
        rwa [ha] at hw
      · cases h
    case h_7 => cases h

/-! ### The rows a word selects (R83, R86) -/

/-- A word that selects a row has the row's opcode: every mask keeps the whole of OP. -/
theorem opField_of_selects {r : OpRow} {w : Word} (hr : r ∈ opTable) (h : r.selects w = true) :
    opField r.pattern = opField w := by
  have hmask : ∀ r ∈ opTable, opField r.mask = BitVec.allOnes 8 := by decide
  calc opField r.pattern = opField (w &&& r.mask) := by rw [eq_of_beq h]
    _ = opField w &&& opField r.mask := BitVec.extractLsb'_and
    _ = opField w := by rw [hmask r hr, BitVec.and_allOnes]

/-- The rows have different opcodes, so a word selects at most one. -/
theorem selected_rows_le_one (w : Word) : (opTable.filter (·.selects w)).length ≤ 1 := by
  have hopcodes : (opTable.map (opField ·.pattern)).Nodup := by decide
  have hsame : (opTable.filter (·.selects w)).map (opField ·.pattern) =
      List.replicate (opTable.filter (·.selects w)).length (opField w) := by
    refine List.eq_replicate_iff.mpr ⟨List.length_map _, fun op hop => ?_⟩
    obtain ⟨r, hmem, rfl⟩ := List.mem_map.mp hop
    obtain ⟨hr, hsel⟩ := List.mem_filter.mp hmem
    exact opField_of_selects hr hsel
  exact List.nodup_replicate.mp (hsame ▸ hopcodes.sublist (List.filter_sublist.map _))

/-- The decoder answers `illegal` exactly when no row is selected. -/
theorem decode_illegal_iff_no_row (w : Word) :
    (∃ why, decode w = .illegal why) ↔ opTable.filter (·.selects w) = [] := by
  rw [List.filter_eq_nil_iff, ← List.find?_eq_none, decode]
  cases opTable.find? (·.selects w) <;> simp

/-! ### The illegal words (R84) -/

/-- The clauses of R84, in fields. -/
theorem illegalWord_iff (w : Word) : illegalWord w = true ↔
    (rsvdField w).toNat ≠ 0 ∨ ((opField w).toNat = 0 ∨ 7 ≤ (opField w).toNat) ∨
    (((opField w).toNat = 5 ∨ (opField w).toNat = 6) ∧ (argField w).toNat ≠ 0) := by
  simp [illegalWord, ← BitVec.toNat_inj, or_assoc]

/-- The decoder, written from R83, answers `illegal` for the words R84 lists and for no others. -/
theorem decode_illegal_iff (w : Word) : (∃ why, decode w = .illegal why) ↔ illegalWord w = true := by
  rw [illegalWord_iff, decode_fields]
  split
  · rename_i hr
    exact iff_of_true ⟨_, rfl⟩ (.inl hr)
  · split
    case h_1 ho | h_2 ho | h_3 ho | h_4 ho => simp [*]
    case h_5 ho | h_6 ho => split <;> simp [*]
    case h_7 =>
      simp only [imp_false] at *
      exact iff_of_true ⟨_, rfl⟩ (by omega)

/-! ### Every step answers (R186, R190) -/

/-- Every command's meaning is total: none faults and none is refused. -/
theorem exec_answers (i : Instr) (s : State) : ∃ t, exec i s = .next t := by
  cases i with
  | loadbr n => rcases execLoadbr_cases n s with ⟨-, h⟩ | ⟨-, h⟩ <;> exact ⟨_, h⟩
  | rdbits c => rcases execRdbits_cases c s with ⟨-, h⟩ | ⟨-, -, -, h⟩ | ⟨-, -, -, h⟩ <;> exact ⟨_, h⟩
  | lookup j =>
    obtain ⟨t, h, -⟩ := execLookup_spec j s
    exact ⟨t, h⟩
  | generate b => rcases execGenerate_cases b s with ⟨-, h⟩ | ⟨-, h⟩ <;> exact ⟨_, h⟩
  | derive => rcases execDerive_cases s with ⟨-, h⟩ | ⟨-, -, h⟩ <;> exact ⟨_, h⟩
  | zeroize => exact ⟨_, rfl⟩

theorem State.decodeStep_answers (s : State) : ∃ t, s.decodeStep = .next t := by
  rw [State.decodeStep]
  cases decode s.cmdl with
  | command i => exact exec_answers i s
  | illegal why => exact ⟨_, rfl⟩

/-- Where SEQ has a step and where it has none. -/
theorem State.seqStep_answers (s : State) : ∃ t, s.seqStep = .next t := by
  unfold State.seqStep
  split
  case h_2 => exact s.decodeStep_answers
  all_goals exact ⟨_, rfl⟩

theorem State.unplanned_answers (s : State) : ∃ t, s.unplanned = .next t := by
  rw [State.unplanned]
  split
  · exact s.seqStep_answers
  · split <;> exact ⟨_, rfl⟩

end Sys2Proof.Machine

open Sys2Proof Sys2Proof.Machine

/-- Settles O1: the fields of a command's word are its row's opcode and its operand. -/
theorem decodeEncodeRoundTrip : Obligations.DecodeEncodeRoundTrip := by
  unfold Obligations.DecodeEncodeRoundTrip
  exact fun _ hi => decode_encode hi

/-- Settles O2: the row that a word selects fixes every field the command does not carry. -/
theorem decodedWordEncodesBack : Obligations.DecodedWordEncodesBack := by
  unfold Obligations.DecodedWordEncodesBack
  exact fun _ _ h => encode_of_decode h

/-- Settles O3: no row is selected exactly when the word is illegal, and never more than one is. -/
theorem everyWordSelectsOneRowOrIsIllegal : Obligations.EveryWordSelectsOneRowOrIsIllegal := by
  unfold Obligations.EveryWordSelectsOneRowOrIsIllegal
  intro w
  have hnone : opTable.filter (·.selects w) = [] ↔ illegalWord w = true :=
    (decode_illegal_iff_no_row w).symm.trans (decode_illegal_iff w)
  refine ⟨?_, fun hlegal => ?_, (decode_illegal_iff w).mpr⟩
  · split
    · rename_i hill
      exact List.length_eq_zero_iff.mpr (hnone.mpr hill)
    · rename_i hlegal
      exact le_antisymm (selected_rows_le_one w) (List.length_pos_iff.mpr (mt hnone.mp hlegal))
  · cases hd : decode w with
    | command i => exact ⟨i, rfl⟩
    | illegal why => exact Bool.noConfusion (hlegal.symm.trans ((decode_illegal_iff w).mp ⟨why, hd⟩))

/-- Settles O4: twelve closed words, evaluated. -/
theorem sampleWordsDecode : Obligations.SampleWordsDecode := by
  unfold Obligations.SampleWordsDecode
  decide

/-- Settles O8: SEQ answers in every phase, since every command's meaning does, and the other turns always answer. -/
theorem everyStepAnswersNext : Obligations.EveryStepAnswersNext := by
  unfold Obligations.EveryStepAnswersNext
  intro s
  cases ht : s.turns with
  | nil =>
    rw [step_unplanned ht]
    exact s.unplanned_answers
  | cons turn rest =>
    by_cases hseq : turn = .seq
    · rw [step_planned ht, hseq]
      exact State.seqStep_answers _
    · exact step_not_seq_answers ht hseq

end

section
/-! PROOFS. The bit-reader commands (40_bitreader.md R101 to R107): when a read finds its bytes, what it takes off the
stream, how far it can shift, and that a completion does not move the reader. -/

namespace Sys2Proof.Machine

/-! ### The bytes a read needs (R102) -/

/-- The number of pulls is the rounded-up quotient in both cases, the truncated difference being 0 in the second. -/
theorem bytesToPull_eq (c nv : Nat) : bytesToPull c nv = (c - nv + 7) / 8 := by
  unfold bytesToPull
  split <;> omega

/-- The stream has c bits exactly when RBUF has the bytes to pull for them (R106). -/
theorem State.le_stream_length_iff {s : State} {c : Nat} (hcur : s.cur.val ≤ s.rlen.val) :
    c ≤ s.stream.length ↔ s.cur.val + bytesToPull c s.nv.val ≤ s.rlen.val := by
  rw [State.stream_length, bytesToPull_eq]
  omega

theorem State.fill_cur_val {s : State} {c : Nat} (h : s.cur.val + bytesToPull c s.nv.val ≤ s.rlen.val) :
    (s.fill c).cur.val = s.cur.val + bytesToPull c s.nv.val :=
  State.pulls_cur_val (by omega)

/-- A read of c bits, before RESULT is written, changes CUR, NV and ACC only. -/
theorem State.fill_consume_only_reader (s : State) (c : Nat) : (s.fill c).consume c = { s with
    cur := ((s.fill c).consume c).cur, nv := ((s.fill c).consume c).nv, acc := ((s.fill c).consume c).acc } := by
  rw [State.fill, State.pulls_only_reader]
  rfl

/-! ### What a read takes off the stream (R104, R106) -/

/-- The valid bits as a number are ACC without what stands above them (R29). -/
theorem State.natOfBits_accBits (s : State) : natOfBits s.accBits = s.acc.toNat % 2 ^ s.nv.val :=
  natOfBits_testBits s.nv.val s.acc.toNat

/-- After an extraction ACC holds the valid bits alone (R104). -/
theorem State.consume_acc_eq_natOfBits (s : State) (c : Nat) :
    (s.consume c).acc.toNat = natOfBits (s.consume c).accBits := by
  rw [State.natOfBits_accBits, State.consume_acc_toNat, State.consume_nv_val, Nat.mod_mod]

section StreamHasBits
variable {s : State} {c : Nat} (hc : c ≤ 64) (hcur : s.cur.val ≤ s.rlen.val) (h : c ≤ s.stream.length)
include hc hcur h

/-- The value a read returns is the first c bits of the stream (R106). -/
theorem State.fill_extracted_toNat : ((s.fill c).extracted c).toNat = natOfBits (s.stream.take c) := by
  obtain ⟨-, -, hnv, hstream⟩ := State.fill_spec hc hcur h
  rw [State.extracted_eq_natOfBits _ hnv hc, ← hstream, State.stream,
    List.take_append_of_le_length (by simpa using hnv)]

/-- A read takes the first c bits off the stream (R106). -/
theorem State.fill_consume_stream : ((s.fill c).consume c).stream = s.stream.drop c := by
  obtain ⟨-, -, hnv, hstream⟩ := State.fill_spec hc hcur h
  rw [State.consume_stream hnv, hstream]

end StreamHasBits

/-! ### Nothing above the valid bits (R105) -/

/-- A pull moves the bound on ACC up with NV. -/
theorem State.pull_acc_lt {s : State} (hnv : s.nv.val < 64) (h : s.acc.toNat < 2 ^ s.nv.val) :
    s.pull.acc.toNat < 2 ^ s.pull.nv.val := by
  have hbyte := (s.buf .rbuf s.cur.val).isLt
  rw [State.pull_acc_toNat, State.pull_nv_val hnv, Nat.pow_add]
  exact lt_of_le_of_lt (Nat.mod_le _ _) (by omega)

theorem State.pulls_acc_lt {k : Nat} : ∀ {s : State}, s.nv.val + 8 * k ≤ 71 → s.acc.toNat < 2 ^ s.nv.val →
    (State.pulls k s).acc.toNat < 2 ^ (State.pulls k s).nv.val := by
  induction k with
  | zero => exact fun _ h => h
  | succ k ih =>
    intro s hnv h
    have hstep := State.pull_nv_val (s := s) (by omega)
    exact ih (by omega) (State.pull_acc_lt (by omega) h)

/-- The pulls of a read leave nothing above the valid bits. -/
theorem State.fill_acc_lt {s : State} {c : Nat} (hc : c ≤ 64) (h : s.acc.toNat < 2 ^ s.nv.val) :
    (s.fill c).acc.toNat < 2 ^ (s.fill c).nv.val := by
  refine State.pulls_acc_lt ?_ h
  rw [bytesToPull_eq]
  omega

/-! ### RDBITS by its tests (R102, R183) -/

theorem execRdbits_paramRange {c : Nat} (s : State) (h : c < 1 ∨ 64 < c) :
    execRdbits c s = .next (s.complete .paramRange) := if_pos h

theorem execRdbits_insufficientData {c : Nat} {s : State} (h1 : 1 ≤ c) (h64 : c ≤ 64)
    (h : s.rlen.val < s.cur.val + bytesToPull c s.nv.val) :
    execRdbits c s = .next (s.complete .insufficientData) := by
  rcases execRdbits_cases c s with ⟨hrange, -⟩ | ⟨-, -, -, he⟩ | ⟨-, -, hbytes, -⟩
  · omega
  · exact he
  · omega

theorem execRdbits_ok {c : Nat} {s : State} (h1 : 1 ≤ c) (h64 : c ≤ 64)
    (h : s.cur.val + bytesToPull c s.nv.val ≤ s.rlen.val) : execRdbits c s =
      .next (State.complete { (s.fill c).consume c with result := (s.fill c).extracted c } .ok) := by
  rcases execRdbits_cases c s with ⟨hrange, -⟩ | ⟨-, -, hbytes, -⟩ | ⟨-, -, -, he⟩
  · omega
  · omega
  · exact he

/-! ### A completion does not move the reader (R107) -/

/-- Pulls neither read nor write what `complete` writes. -/
theorem State.pulls_complete (code : ErrCode) (k : Nat) : ∀ s : State,
    State.pulls k (s.complete code) = (State.pulls k s).complete code := by
  induction k with
  | zero => exact fun _ => rfl
  | succ k ih => exact fun s => ih s.pull

/-- RDBITS does the same before and after a completion that changed nothing else. -/
theorem execRdbits_complete (c : Nat) (s : State) (code : ErrCode) :
    execRdbits c (s.complete code) = execRdbits c s := by
  have hfill : (s.complete code).fill c = (s.fill c).complete code := State.pulls_complete code _ s
  unfold execRdbits
  rw [hfill]
  rfl

/-- An RDBITS that fails is a completion alone (R107). -/
theorem execRdbits_failed {c : Nat} {s t : State} (h : execRdbits c s = .next t) (herr : t.err ≠ .ok) :
    ∃ code, t = s.complete code := by
  rcases execRdbits_cases c s with ⟨-, he⟩ | ⟨-, -, -, he⟩ | ⟨-, -, -, he⟩ <;>
    obtain rfl := Host.Outcome.next.inj (he.symm.trans h)
  · exact ⟨_, rfl⟩
  · exact ⟨_, rfl⟩
  · exact absurd rfl herr

end Sys2Proof.Machine

open Sys2Proof Sys2Proof.Machine

/-- Settles O9: the two outcomes of LOADBR exclude each other at 33. -/
theorem loadbrLoadsReader : Obligations.LoadbrLoadsReader := by
  unfold Obligations.LoadbrLoadsReader
  intro n s
  rcases execLoadbr_cases n s with ⟨hn, he⟩ | ⟨hn, he⟩
  · exact ⟨fun h => absurd h (by omega), fun _ => he⟩
  · exact ⟨fun _ => ⟨_, he, Nat.mod_eq_of_lt (by omega), rfl⟩, fun h => absurd h (by omega)⟩

/-- Settles O10: the bytes are there exactly when the stream has the bits, pulls leave the stream alone, and the
extraction takes its first c bits. -/
theorem rdbitsReadsStream : Obligations.RdbitsReadsStream := by
  unfold Obligations.RdbitsReadsStream
  intro c s h1 h64 hcur
  refine ⟨s.stream_length, fun hbits => ?_, fun hfew => ?_⟩
  · have hbytes := (State.le_stream_length_iff hcur).mp hbits
    refine ⟨_, execRdbits_ok h1 h64 hbytes, State.fill_extracted_toNat h64 hcur hbits,
      State.fill_consume_stream h64 hcur hbits, ?_, ?_, State.consume_acc_eq_natOfBits _ c, ?_⟩
    · exact (State.fill_cur_val hbytes).trans (by rw [bytesToPull_eq])
    · exact (State.consume_nv_val _ c).trans (by rw [(State.fill_nv_val h64).1, bytesToPull_eq])
    · rw [State.fill_consume_only_reader]
      rfl
  · exact execRdbits_insufficientData h1 h64 (Nat.not_le.mp (mt (State.le_stream_length_iff hcur).mpr (by omega)))

/-- Settles O11: a failure is a completion alone, and a completion does not change what a later RDBITS does. -/
theorem failedRdbitsIsAtomic : Obligations.FailedRdbitsIsAtomic := by
  unfold Obligations.FailedRdbitsIsAtomic
  refine ⟨fun c s h => execRdbits_paramRange s h, fun c s h1 h64 h => ?_, fun c c' s t he herr => ?_⟩
  · exact execRdbits_insufficientData h1 h64 (by rwa [bytesToPull_eq])
  · obtain ⟨code, rfl⟩ := execRdbits_failed he herr
    exact execRdbits_complete c' s code

/-- Settles O12: with CUR below RLEN and NV below 64 neither counter wraps, and the byte moves from RBUF's part of the
stream to ACC's. -/
theorem pullAppendsOneByte : Obligations.PullAppendsOneByte := by
  unfold Obligations.PullAppendsOneByte
  intro s hcur hnv
  have hacc : s.pull.acc.toNat = (s.acc.toNat <<< 8 ||| (s.buf .rbuf s.cur.val).toNat) % 2 ^ 72 := by
    rw [State.pull_acc_toNat, ← Nat.shiftLeft_eq, Nat.shiftLeft_add_eq_or_of_lt (s.buf .rbuf s.cur.val).isLt]
  exact ⟨hacc, State.pull_cur_val (by omega), State.pull_nv_val hnv, rfl, State.pull_stream hcur hnv⟩

/-- Settles O13: the shifted and masked ACC is the first c valid bits, and masking it to NV - c bits drops them. -/
theorem extractTakesOldestBits : Obligations.ExtractTakesOldestBits := by
  unfold Obligations.ExtractTakesOldestBits
  intro s c hnv hc
  refine ⟨?_, State.extracted_eq_natOfBits s hnv hc, s.consume_nv_val c, ?_, s.consume_accBits c, rfl⟩
  · rw [State.extracted_toNat s hc, Nat.shiftRight_eq_div_pow, Nat.and_two_pow_sub_one_eq_mod]
  · rw [State.consume_acc_toNat, Nat.and_two_pow_sub_one_eq_mod]

/-- Settles O14: the pulls stop at most 7 bits past c and move the bound on ACC with NV, and what an extraction leaves
is reduced modulo 2^NV. -/
theorem shiftIsAtMostSeven : Obligations.ShiftIsAtMostSeven := by
  unfold Obligations.ShiftIsAtMostSeven
  intro s c hnv hacc _ h64 _
  obtain ⟨hfnv, hle⟩ := State.fill_nv_val (s := s) h64
  have hshift : (s.fill c).nv.val - c ≤ 7 := by rw [hfnv, bytesToPull_eq]; omega
  have hmax : (s.fill c).nv.val ≤ 71 := by omega
  have hwide : (s.fill c).acc.toNat < 2 ^ 71 :=
    lt_of_lt_of_le (State.fill_acc_lt h64 hacc) (Nat.pow_le_pow_right (by decide) hmax)
  refine ⟨hle, hshift, hmax, hwide, ?_, ?_⟩
  · rwa [State.consume_nv_val]
  · rw [State.consume_acc_toNat, State.consume_nv_val]
    exact Nat.mod_lt _ (Nat.two_pow_pos _)

end

section
/-! PROOFS. LOOKUP, and GENERATE's first SEQ step (41_codec.md R120 to R123): the ROM entry that WORD then holds, and
the size test that comes before the request to HC. -/

namespace Sys2Proof.Machine

/-- Inside its length a padded copy has the bytes of the string, and 0 past its end (R120). -/
theorem padTo_getElem {n : Nat} (l : ByteString) {k : Nat} (h : k < (padTo n l).length) :
    (padTo n l)[k] = l.getD k 0 := by
  simp [padTo]

/-- The size test accepts each of the five sizes (R122). -/
theorem entropySizeOk_of_mem {b : Nat} (h : b ∈ [128, 160, 192, 224, 256]) : entropySizeOk b = true :=
  List.contains_iff_mem.2 h

end Sys2Proof.Machine

open Sys2Proof Sys2Proof.Machine

/-- Settles O16: the padded entry fills the sixteen bytes of WORD and reaches no other address. -/
theorem lookupCopiesRomEntry : Obligations.LookupCopiesRomEntry := by
  unfold Obligations.LookupCopiesRomEntry
  intro i s _ hw
  obtain ⟨t, he, hmem, hwlen, ht⟩ := execLookup_spec i s
  obtain ⟨hpos, hmax⟩ := rom_length i
  refine ⟨t, he, fun k hk => ?_, hwlen, hpos, hmax, fun a ha => ?_, ht⟩
  · have hbyte := State.buf_setBytes_same .word (padTo 16 (rom i)) (i := 0) hw (by rwa [padTo_length])
      (by rwa [Nat.zero_add])
    rw [Nat.zero_add, padTo_getElem] at hbyte
    rw [State.buf_congr hmem, hbyte]
  · rw [hmem, State.read_setBytes_outside .word _ (by rw [padTo_length]; omega)]

/-- Settles O17: ROM entry 0 is "abandon" by R8, and WORD reads back as its padded copy. -/
theorem lookupZeroIsAbandon : Obligations.LookupZeroIsAbandon := by
  unfold Obligations.LookupZeroIsAbandon
  intro s hw
  obtain ⟨t, he, hmem, hwlen, -⟩ := execLookup_spec 0 s
  rw [rom_zero] at hmem hwlen
  have hword : t.slice .word 0 16 = padTo 16 Config.abandon :=
    (State.slice_congr hmem _ _ _).trans (State.slice_setBytes_same .word (padTo 16 Config.abandon) hw (by decide))
  exact ⟨t, he, hword, hwlen⟩

/-- Settles O18: a size the test rejects is a completion alone. -/
theorem generateRejectsOtherSizes : Obligations.GenerateRejectsOtherSizes := by
  unfold Obligations.GenerateRejectsOtherSizes
  intro b s hb
  rcases execGenerate_cases b s with ⟨hok, -⟩ | ⟨-, he⟩
  · exact absurd (mem_of_entropySizeOk hok) hb
  · exact he

/-- Settles O19: a size the test accepts makes the request and nothing else. -/
theorem generateRequestsDigest : Obligations.GenerateRequestsDigest := by
  unfold Obligations.GenerateRequestsDigest
  intro b s hb
  rcases execGenerate_cases b s with ⟨-, he⟩ | ⟨hno, -⟩
  · exact he
  · exact Bool.noConfusion (hno.symm.trans (entropySizeOk_of_mem hb))

end

section
/-! PROOFS. GENERATE's second SEQ step (41_codec.md R121, R124 to R132): how the bits of the entropy and of the
digest's first byte fall to the word indices, what the reads leave in the bit reader, and the sentence. -/

namespace Sys2Proof.Machine

/-! ### Lists of bits as numbers -/

theorem natOfBits_append (l l' : List Bool) : natOfBits (l ++ l') = natOfBits l * 2 ^ l'.length + natOfBits l' := by
  induction l' using List.reverseRecOn with
  | nil => simp [natOfBits]
  | append_singleton l' b ih =>
    rw [← List.append_assoc, natOfBits_append_singleton, natOfBits_append_singleton, ih, List.length_append,
      List.length_singleton, Nat.pow_succ]
    ring

/-- The bits of a byte past the first c are its low 8 - c bits as a number. -/
theorem natOfBits_drop_bitsOfByte (b : Byte) {c : Nat} (h : c ≤ 8) :
    natOfBits ((bitsOfByte b).drop c) = b.toNat % 2 ^ (8 - c) := by
  have hwhole : natOfBits (bitsOfByte b) = b.toNat := by
    simpa [List.take_of_length_le] using natOfBits_take_bitsOfByte b (c := 8) (le_refl 8)
  have hparts := natOfBits_append ((bitsOfByte b).take c) ((bitsOfByte b).drop c)
  rw [List.take_append_drop, hwhole, natOfBits_take_bitsOfByte b h, List.length_drop, bitsOfByte_length] at hparts
  have := Nat.div_add_mod' b.toNat (2 ^ (8 - c))
  omega

/-! ### The sizes (R124, R125) -/

/-- An allowed size b is n whole bytes, and the W indices take all of their bits and the cs checksum bits. -/
theorem generate_bits {b : Nat} (h : entropySizeOk b = true) :
    b = 8 * entropyBytes b ∧ 11 * wordCount b = 8 * entropyBytes b + checksumBits b := by
  have hb := mem_of_entropySizeOk h
  simp only [List.mem_cons, List.not_mem_nil, or_false] at hb
  unfold entropyBytes wordCount checksumBits
  omega

/-- The ranges of cs and n over the allowed sizes. -/
theorem generate_ranges {b : Nat} (h : entropySizeOk b = true) :
    4 ≤ checksumBits b ∧ checksumBits b ≤ 8 ∧ 16 ≤ entropyBytes b ∧ entropyBytes b ≤ 32 := by
  have hb := mem_of_entropySizeOk h
  simp only [List.mem_cons, List.not_mem_nil, or_false] at hb
  unfold entropyBytes checksumBits
  omega

/-- The word count fits WIDX. -/
theorem wordCount_le {b : Nat} (h : entropySizeOk b = true) : wordCount b ≤ 24 := by
  obtain ⟨-, hbits⟩ := generate_bits h
  obtain ⟨-, hcs, -, hn⟩ := generate_ranges h
  omega

/-! ### The packed bits (R126, R131) -/

theorem State.slice_concat (s : State) (b : Buf) {lo hi : Nat} (h : lo ≤ hi) :
    s.slice b lo (hi + 1) = s.slice b lo hi ++ [s.buf b hi] := by
  rw [State.slice, show hi + 1 - lo = hi - lo + 1 by omega, List.range_succ, List.map_append, List.map_singleton,
    Nat.add_sub_cancel' h]
  rfl

/-- Past the entropy stand the bits of the digest's first byte. -/
theorem drop_bitStream_packed (e : ByteString) (d0 : Byte) (c : Nat) :
    (bitStream (e ++ [d0])).drop (8 * e.length + c) = (bitsOfByte d0).drop c := by
  rw [bitStream_append, ← bitStream_length, List.drop_length_add_append]
  exact congrArg (List.drop c) (List.append_nil _)

/-- The last group of eleven: the last 11 - cs entropy bits, then the first cs bits of the digest (R131). -/
theorem last_group_packed (e : ByteString) (x d0 : Byte) {cs : Nat} (h3 : 3 ≤ cs) (h8 : cs ≤ 8) :
    natOfBits (((bitStream (e ++ [x] ++ [d0])).drop (8 * e.length + (cs - 3))).take 11) =
      (x.toNat &&& (2 ^ (11 - cs) - 1)) <<< cs ||| d0.toNat >>> (8 - cs) := by
  have hgroup : ((bitStream (e ++ [x] ++ [d0])).drop (8 * e.length + (cs - 3))).take 11 =
      (bitsOfByte x).drop (cs - 3) ++ (bitsOfByte d0).take cs := by
    have hlen : ((bitsOfByte x).drop (cs - 3)).length + cs = 11 := by
      rw [List.length_drop, bitsOfByte_length]; omega
    rw [List.append_assoc, bitStream_append, ← bitStream_length, List.drop_length_add_append, List.singleton_append,
      bitStream_cons, List.drop_append_of_le_length (by rw [bitsOfByte_length]; omega), ← hlen,
      List.take_length_add_append]
    exact congrArg (fun l => _ ++ l.take cs) (List.append_nil _)
  have hdigest : d0.toNat / 2 ^ (8 - cs) < 2 ^ cs := by
    rw [Nat.div_lt_iff_lt_mul (Nat.two_pow_pos _), ← Nat.pow_add, Nat.add_sub_cancel' h8]
    exact d0.isLt
  rw [hgroup, natOfBits_append, natOfBits_drop_bitsOfByte x (by omega), natOfBits_take_bitsOfByte d0 h8,
    List.length_take, bitsOfByte_length, Nat.min_eq_left h8, Nat.and_two_pow_sub_one_eq_mod,
    Nat.shiftRight_eq_div_pow, ← Nat.shiftLeft_add_eq_or_of_lt hdigest, Nat.shiftLeft_eq,
    show 8 - (cs - 3) = 11 - cs by omega]

/-! ### The reader the reads leave (R127, R129, R130) -/

/-- W reads take 11W bits off the stream (R127). -/
theorem State.read11s_stream (w : Nat) : ∀ {s : State}, s.ReaderLegal → 11 * w ≤ s.stream.length →
    (State.read11s w s).2.stream = s.stream.drop (11 * w) := by
  induction w with
  | zero => exact fun _ _ => rfl
  | succ w ih =>
    intro s h hbits
    have hrest : ((s.fill 11).consume 11).stream = s.stream.drop 11 :=
      State.fill_consume_stream (by omega) h.1 (by omega)
    have hlegal : ((s.fill 11).consume 11).ReaderLegal := State.fill_consume_readerLegal h (by omega) (by omega)
    have htail := ih hlegal (by rw [hrest, List.length_drop]; omega)
    rw [hrest, List.drop_drop, Nat.add_comm, ← Nat.mul_succ] at htail
    exact htail

theorem State.pack_readerLegal (s : State) (e : ByteString) (d0 : Byte) : (s.pack e d0).ReaderLegal :=
  State.readerLegal_cleared rfl rfl rfl

theorem State.pack_stream_length (s : State) {e : ByteString} (d0 : Byte) (he : e.length ≤ 32) :
    (s.pack e d0).stream.length = 8 * (e.length + 1) := by
  have hr : (s.pack e d0).rlen.val = e.length + 1 := Nat.mod_eq_of_lt (by omega)
  rw [State.stream_length, hr]
  exact Nat.zero_add _

/-- A legal reader with fewer than eight bits left has pulled every byte: what is left is in ACC. -/
theorem State.ReaderLegal.of_short_stream {s : State} (h : s.ReaderLegal) (hs : s.stream.length < 8) :
    s.cur = s.rlen ∧ s.nv.val = s.stream.length ∧ s.acc.toNat = natOfBits s.stream := by
  obtain ⟨hcur, -, hacc⟩ := h
  have hlen := s.stream_length
  have hend : s.cur.val = s.rlen.val := by omega
  have hstream : s.stream = s.accBits := by
    have hnone : s.slice .rbuf s.cur.val s.rlen.val = [] :=
      List.eq_nil_of_length_eq_zero (by rw [State.slice_length, hend, Nat.sub_self])
    rw [State.stream, hnone]
    exact List.append_nil _
  refine ⟨Fin.ext hend, by omega, ?_⟩
  rw [hstream, State.natOfBits_accBits, Nat.mod_eq_of_lt hacc]

section AllowedSize
variable {s : State} (d : ByteString) (hb : entropySizeOk s.arg = true) (hw : Memory.wf s.mem = true)
include hb hw

/-- GENERATE's reads leave the digest's bits after the checksum in the stream (R129). -/
theorem State.generateReads_stream :
    (s.generateReads d).2.stream = (bitsOfByte (d.getD 0 0)).drop (checksumBits s.arg) := by
  obtain ⟨-, hbits⟩ := generate_bits hb
  obtain ⟨-, hcs, -, hn⟩ := generate_ranges hb
  have hlen := s.slice_length .ebuf 0 (entropyBytes s.arg)
  have hpack := State.pack_stream (s := { s with hresp := none }) (e := s.slice .ebuf 0 (entropyBytes s.arg))
    (d.getD 0 0) hw (by omega)
  have hdrop := drop_bitStream_packed (s.slice .ebuf 0 (entropyBytes s.arg)) (d.getD 0 0) (checksumBits s.arg)
  rw [hlen, Nat.sub_zero, ← hbits] at hdrop
  rw [State.generateReads, State.read11s_stream _ (State.pack_readerLegal _ _ _), hpack, hdrop]
  · rw [State.pack_stream_length _ _ (by omega)]
    omega

/-- The bit reader GENERATE leaves: every packed byte pulled, the unread bits of the digest's byte in ACC (R129). -/
theorem State.generateFinish_reader_values :
    (s.generateFinish d).rlen.val = entropyBytes s.arg + 1 ∧ (s.generateFinish d).cur.val = entropyBytes s.arg + 1 ∧
    (s.generateFinish d).nv.val = 8 - checksumBits s.arg ∧
    (s.generateFinish d).acc.toNat = (d.getD 0 0).toNat % 2 ^ (8 - checksumBits s.arg) := by
  obtain ⟨hcs4, hcs, -, hn⟩ := generate_ranges hb
  obtain ⟨hrlen, hcur, hnv, hacc⟩ := s.generateFinish_reader d
  have hstream := State.generateReads_stream d hb hw
  have hlen : (s.generateReads d).2.stream.length = 8 - checksumBits s.arg := by
    rw [hstream, List.length_drop, bitsOfByte_length]
  obtain ⟨hcur', hnv', hacc'⟩ := (State.generateReads_readerLegal d hb hw).of_short_stream (by omega)
  have hrlen' : (s.generateReads d).2.rlen.val = entropyBytes s.arg + 1 := by
    rw [State.generateReads, State.read11s_only_reader]
    simp [State.pack, Nat.mod_eq_of_lt (show entropyBytes s.arg + 1 < 34 by omega)]
  refine ⟨?_, ?_, ?_, ?_⟩
  · rw [hrlen, hrlen']
  · rw [hcur, hcur', hrlen']
  · rw [hnv, hnv', hlen]
  · rw [hacc, hacc', hstream, natOfBits_drop_bitsOfByte _ hcs]

end AllowedSize

/-! ### The indices (R121, R131) -/

@[simp] theorem State.generateReads_length (s : State) (d : ByteString) :
    (s.generateReads d).1.length = wordCount s.arg :=
  State.read11s_length _ _

/-- WIDX is the indices, then zeros (R121). -/
theorem widxOf_toList {idx : List (BitVec 11)} (h : idx.length ≤ 24) :
    (widxOf idx).toList = idx ++ List.replicate (24 - idx.length) 0 := by
  apply List.ext_getElem
  · simp; omega
  · intro j hj hj'
    by_cases hlt : j < idx.length <;> simp [widxOf, List.getElem_append, hlt]

section AllowedSize
variable {s : State} (d : ByteString) (hb : entropySizeOk s.arg = true)
include hb

theorem State.generateFinish_widx_toList : (s.generateFinish d).widx.toList =
    (s.generateReads d).1 ++ List.replicate (24 - wordCount s.arg) 0 := by
  have hcount := wordCount_le hb
  obtain ⟨hwidx, -⟩ := s.generateFinish_fields d
  rw [hwidx, widxOf_toList (by rwa [State.generateReads_length]), State.generateReads_length]

/-- The entries past the last index are 0 (R121). -/
theorem State.generateFinish_widx_tail {j : Nat} (hj : wordCount s.arg ≤ j) :
    (s.generateFinish d).widx.toList.getD j 0 = 0 := by
  rw [State.generateFinish_widx_toList d hb, List.getD_append_right _ _ _ _ (by rwa [State.generateReads_length]),
    List.getD_eq_getElem?_getD, List.getElem?_getD_replicate_default_eq]

/-- Each index is its eleven bits of the entropy and the digest's first byte (R131). -/
theorem State.generateFinish_widx_toNat (hw : Memory.wf s.mem = true) {j : Nat} (hj : j < wordCount s.arg) :
    ((s.generateFinish d).widx.toList.getD j 0).toNat =
      natOfBits (((bitStream (s.slice .ebuf 0 (entropyBytes s.arg) ++ [d.getD 0 0])).drop (11 * j)).take 11) := by
  have hlen : j < (s.generateReads d).1.length := by rwa [State.generateReads_length]
  have hidx := congrArg (·[j]?) (State.generateReads_eq_stream d hb hw)
  rw [State.generateFinish_widx_toList d hb, List.getD_append _ _ _ _ hlen, List.getD_eq_getElem _ _ hlen]
  simpa [hlen, hj] using hidx

/-- The last index: the last entropy bits, then the checksum (R131). -/
theorem State.generateFinish_widx_last (hw : Memory.wf s.mem = true) :
    ((s.generateFinish d).widx.toList.getD (wordCount s.arg - 1) 0).toNat =
      ((s.buf .ebuf (entropyBytes s.arg - 1)).toNat &&& (2 ^ (11 - checksumBits s.arg) - 1)) <<< checksumBits s.arg |||
        (d.getD 0 0).toNat >>> (8 - checksumBits s.arg) := by
  obtain ⟨-, hbits⟩ := generate_bits hb
  obtain ⟨hcs4, hcs, hn16, -⟩ := generate_ranges hb
  have hsplit : s.slice .ebuf 0 (entropyBytes s.arg) =
      s.slice .ebuf 0 (entropyBytes s.arg - 1) ++ [s.buf .ebuf (entropyBytes s.arg - 1)] := by
    rw [← State.slice_concat s .ebuf (Nat.zero_le _), Nat.sub_add_cancel (by omega)]
  have hstart : 11 * (wordCount s.arg - 1) =
      8 * (s.slice .ebuf 0 (entropyBytes s.arg - 1)).length + (checksumBits s.arg - 3) := by
    rw [State.slice_length]; omega
  rw [State.generateFinish_widx_toNat d hb hw (by omega), hsplit, hstart, last_group_packed _ _ _ (by omega) hcs]

end AllowedSize

/-! ### The sentence and the memory (R126, R128) -/

theorem sentence_eq_intercalate (ws : List ByteString) : sentence ws = List.intercalate [Config.sep] ws := by
  induction ws with
  | nil => rfl
  | cons w ws ih =>
    cases ws with
    | nil => simp [sentence]
    | cons w' ws =>
      have hcons : sentence (w :: w' :: ws) = w ++ Config.sep :: sentence (w' :: ws) := rfl
      rw [hcons, ih, List.intercalate_cons_cons, List.append_assoc, List.singleton_append]

/-- Words of up to 16 bytes and the spaces between them (R128). -/
theorem sentence_length_le {ws : List ByteString} (h : ∀ w ∈ ws, w.length ≤ 16) :
    (sentence ws).length ≤ 17 * ws.length - 1 := by
  induction ws with
  | nil => exact Nat.le_refl 0
  | cons w ws ih =>
    obtain ⟨hw, hws⟩ := List.forall_mem_cons.mp h
    cases ws with
    | nil => exact hw
    | cons w' ws =>
      have hrest := ih hws
      have hcons : (sentence (w :: w' :: ws)).length = w.length + ((sentence (w' :: ws)).length + 1) :=
        List.length_append
      simp only [List.length_cons] at hrest ⊢
      omega

section AllowedSize
variable {s : State} (d : ByteString) (hb : entropySizeOk s.arg = true)
include hb

/-- Twenty-four words of sixteen bytes and twenty-three spaces are 407 bytes (R128). -/
theorem State.generateText_length_le : (s.generateText d).length ≤ 407 := by
  have hcount := wordCount_le hb
  have hwords : ∀ w ∈ (s.generateReads d).1.map (fun i => rom i.toNat), w.length ≤ 16 := by
    intro w hmem
    obtain ⟨i, -, rfl⟩ := List.mem_map.mp hmem
    exact (rom_length i.toNat).2
  have hlen := sentence_length_le hwords
  rw [List.length_map, State.generateReads_length] at hlen
  exact hlen.trans (by omega)

theorem State.generateText_eq_intercalate : s.generateText d = List.intercalate [Config.sep]
    (((s.generateFinish d).widx.toList.take (wordCount s.arg)).map fun i => rom i.toNat) := by
  rw [State.generateFinish_widx_toList d hb, List.take_left' (State.generateReads_length s d), State.generateText,
    sentence_eq_intercalate]

/-- The mnemonic GENERATE leaves is its text (R128). -/
theorem State.generateFinish_mnemonic (hw : Memory.wf s.mem = true) :
    (s.generateFinish d).mlen.toNat = (s.generateText d).length ∧
    (s.generateFinish d).slice .mbuf 0 (s.generateText d).length = s.generateText d := by
  have hlen := State.generateText_length_le d hb
  obtain ⟨hmlen, hmbuf⟩ := State.generateFinish_text d hw (by omega)
  rw [hmlen]
  exact ⟨Nat.mod_eq_of_lt (by omega), hmbuf⟩

/-- RBUF holds the entropy and the digest's first byte (R126). -/
theorem State.generateFinish_rbuf (hw : Memory.wf s.mem = true) :
    (s.generateFinish d).slice .rbuf 0 (entropyBytes s.arg + 1) =
      s.slice .ebuf 0 (entropyBytes s.arg) ++ [d.getD 0 0] := by
  obtain ⟨-, -, -, hn⟩ := generate_ranges hb
  have hsame := State.slice_setBytes_same .rbuf (s.slice .ebuf 0 (entropyBytes s.arg) ++ [d.getD 0 0]) (i := 0) hw
    (by simp [Buf.size, Config.rbufBytes]; omega)
  rw [Nat.zero_add, List.length_append, State.slice_length, Nat.sub_zero, List.length_singleton] at hsame
  rw [State.slice_congr (s.generateFinish_mem d), State.slice_setBytes_other _ _ _ (.inl (by decide)), hsame]

end AllowedSize

/-- GENERATE's last step writes the Packed Buffer's bytes and the text's, and no other address (R126, R128). -/
theorem State.read_generateFinish_outside (s : State) (d : ByteString) {a : Nat}
    (hr : ¬ (Buf.rbuf.base ≤ a ∧ a < Buf.rbuf.base + (entropyBytes s.arg + 1)))
    (hm : ¬ (Buf.mbuf.base ≤ a ∧ a < Buf.mbuf.base + (s.generateText d).length)) :
    Memory.read (s.generateFinish d).mem a = Memory.read s.mem a := by
  rw [State.generateFinish_mem, State.read_setBytes_outside .mbuf _ (by omega),
    State.read_setBytes_outside .rbuf _ (by simp; omega)]

/-- The registers GENERATE's last step writes (R129). -/
theorem State.generateFinish_only (s : State) (d : ByteString) : s.generateFinish d = { s with
    rlen := (s.generateFinish d).rlen, cur := (s.generateFinish d).cur, nv := (s.generateFinish d).nv
    acc := (s.generateFinish d).acc, widx := (s.generateFinish d).widx, wcount := (s.generateFinish d).wcount
    mem := (s.generateFinish d).mem, mlen := (s.generateFinish d).mlen, hresp := none
    busy := false, done := true, err := .ok, phase := .idle } := by
  obtain ⟨rlen, cur, nv, acc, widx, wcount, mem, mlen, h⟩ : ∃ rlen cur nv acc widx wcount mem mlen,
      s.generateFinish d = { s with
        rlen := rlen, cur := cur, nv := nv, acc := acc, widx := widx, wcount := wcount, mem := mem, mlen := mlen
        hresp := none, busy := false, done := true, err := .ok, phase := .idle } := by
    rw [State.generateFinish, State.assemble_only, State.read11s_only_reader, State.pack, State.setBytes_only_mem]
    exact ⟨_, _, _, _, _, _, _, _, rfl⟩
  rw [h]

/-- SEQ's turn in HWAIT, with the answer there, is GENERATE's second step (R186). -/
theorem step_generateFinish {s : State} {rest : List Turn} {d : ByteString} (hp : s.phase = .hwait)
    (hr : s.hresp = some d) (ht : s.turns = .seq :: rest) :
    step s = .next (State.generateFinish { s with turns := rest } d) := by
  rw [step_planned ht]
  exact State.seqStep_hwait hp hr

/-! ### What GENERATE's result depends on (R132) -/

/-- Two second steps for one size that find the same entropy and the same digest byte read the same indices. -/
theorem State.generateReads_congr {s s' : State} {d d' : ByteString} (hb : entropySizeOk s.arg = true)
    (hw : Memory.wf s.mem = true) (hw' : Memory.wf s'.mem = true) (harg : s.arg = s'.arg)
    (he : s.slice .ebuf 0 (entropyBytes s.arg) = s'.slice .ebuf 0 (entropyBytes s.arg))
    (hd : d.getD 0 0 = d'.getD 0 0) :
    (s.generateReads d).1 = (s'.generateReads d').1 := by
  apply List.map_injective_iff.mpr BitVec.toNat_injective
  rw [State.generateReads_eq_stream d hb hw, State.generateReads_eq_stream d' (harg ▸ hb) hw', ← harg, he, hd]

end Sys2Proof.Machine

open Sys2Proof Sys2Proof.Machine

/-- Settles O20: the reads stop cs bits into the digest's byte, which is the last byte pulled. -/
theorem generateFinalState : Obligations.GenerateFinalState := by
  unfold Obligations.GenerateFinalState
  rintro s rest b d0 ds hp hr ht rfl hb hw
  have hok := entropySizeOk_of_mem hb
  obtain ⟨hrlen, hcur, hnv, hacc⟩ :=
    State.generateFinish_reader_values (s := { s with turns := rest }) (d0 :: ds) hok hw
  obtain ⟨-, -, -, hwcount⟩ := State.generateFinish_fields { s with turns := rest } (d0 :: ds)
  have hbuf (b : Buf) (h : b ≠ .rbuf ∧ b ≠ .mbuf) :=
    State.generateFinish_buf { s with turns := rest } (d0 :: ds) h.1 h.2
  refine ⟨_, step_generateFinish hp hr ht, hrlen, hcur, hnv, ?_, ?_, fun k => ⟨?_, ?_, ?_, ?_⟩, ?_⟩
  · rw [Nat.and_two_pow_sub_one_eq_mod]
    exact hacc
  · rw [hwcount]
    exact Nat.mod_eq_of_lt (Nat.lt_succ_of_le (wordCount_le hok))
  · exact hbuf .word (by decide) k
  · exact hbuf .ebuf (by decide) k
  · exact hbuf .pass (by decide) k
  · exact hbuf .seed (by decide) k
  · exact State.generateFinish_only { s with turns := rest } (d0 :: ds)

/-- Settles O21: the reads take the packed bits eleven at a time, and the last group runs into the digest's byte. -/
theorem generateIndicesClosedForm : Obligations.GenerateIndicesClosedForm := by
  unfold Obligations.GenerateIndicesClosedForm
  rintro s rest b d0 ds hp hr ht rfl hb hw
  have hok := entropySizeOk_of_mem hb
  exact ⟨_, step_generateFinish hp hr ht,
    fun j hj => State.generateFinish_widx_toNat (s := { s with turns := rest }) (d0 :: ds) hok hw hj,
    fun j hj => State.generateFinish_widx_tail (s := { s with turns := rest }) (d0 :: ds) hok hj,
    State.generateFinish_widx_last (s := { s with turns := rest }) (d0 :: ds) hok hw⟩

/-- Settles O22: Pack and Assemble write the Packed Buffer's bytes and the text's, and the words are at most sixteen
bytes each. -/
theorem generateWritesSentence : Obligations.GenerateWritesSentence := by
  unfold Obligations.GenerateWritesSentence
  rintro s rest b d0 ds hp hr ht rfl hb hw
  have hok := entropySizeOk_of_mem hb
  obtain ⟨hmlen, hmbuf⟩ := State.generateFinish_mnemonic (s := { s with turns := rest }) (d0 :: ds) hok hw
  exact ⟨_, step_generateFinish hp hr ht, State.generateText { s with turns := rest } (d0 :: ds),
    State.generateText_eq_intercalate (s := { s with turns := rest }) (d0 :: ds) hok,
    State.generateText_length_le (s := { s with turns := rest }) (d0 :: ds) hok, hmlen, hmbuf,
    State.generateFinish_rbuf (s := { s with turns := rest }) (d0 :: ds) hok hw,
    fun a => State.read_generateFinish_outside { s with turns := rest } (d0 :: ds)⟩

/-- Settles O23: after j reads 11j bits are gone, so before the last read eleven are left. -/
theorem generateNeverRunsShort : Obligations.GenerateNeverRunsShort := by
  unfold Obligations.GenerateNeverRunsShort
  intro s e d0 b hb he
  have hok := entropySizeOk_of_mem hb
  obtain ⟨hbytes, hbits⟩ := generate_bits hok
  obtain ⟨-, hcs, -, hn⟩ := generate_ranges hok
  unfold entropyBytes wordCount checksumBits at *
  refine ⟨by omega, by omega, fun j hj => ?_⟩
  have hlegal := s.pack_readerLegal e d0
  have hlen := s.pack_stream_length (e := e) d0 (by omega)
  have hleft : 11 ≤ (State.read11s j (s.pack e d0)).2.stream.length := by
    rw [State.read11s_stream j hlegal (by omega), List.length_drop]
    omega
  have hcur := (State.read11s_readerLegal j hlegal (by omega)).1
  rw [← bytesToPull_eq]
  exact (State.le_stream_length_iff hcur).mp hleft

/-- Settles O24: HC answers both requests alike, and the indices, from which all else follows, depend on the entropy
and the answer alone. -/
theorem generateIsDeterministic : Obligations.GenerateIsDeterministic := by
  unfold Obligations.GenerateIsDeterministic
  intro s s' rest rest' b hinv hinv' hp hp' hd hd' hb he ht ht'
  have hok := entropySizeOk_of_mem hb
  obtain rfl : s.arg = b := arg_of_decode_generate hd
  have harg : s'.arg = s.arg := arg_of_decode_generate hd'
  have hok' : entropySizeOk s'.arg = true := by rwa [harg]
  have hanswer : (Request.h256 (s.slice .ebuf 0 (entropyBytes s.arg))).answer =
      (Request.h256 (s'.slice .ebuf 0 (entropyBytes s.arg))).answer := congrArg (fun m => (Request.h256 m).answer) he
  have hreads := State.generateReads_congr (s := s.answered s.arg rest) (s' := s'.answered s.arg rest') hok
    hinv.memWf hinv'.memWf harg.symm he (congrArg (·.getD 0 0) hanswer)
  have htext := congrArg (fun idx : List (BitVec 11) => sentence (idx.map fun i => rom i.toNat)) hreads
  obtain ⟨hwidx, -, -, hwcount⟩ := State.generateFinish_fields (s.answered s.arg rest) _
  obtain ⟨hwidx', -, -, hwcount'⟩ := State.generateFinish_fields (s'.answered s.arg rest') _
  obtain ⟨hmlen, hmbuf⟩ := State.generateFinish_mnemonic (s := s.answered s.arg rest) _ hok hinv.memWf
  obtain ⟨hmlen', hmbuf'⟩ := State.generateFinish_mnemonic (s := s'.answered s.arg rest') _ hok' hinv'.memWf
  refine ⟨_, _, State.run_generate hp hd hok ht, State.run_generate hp' hd' hok ht', ?_, ?_, ?_, ?_⟩
  · rw [hwidx, hwidx', hreads]
  · rw [hwcount, hwcount', State.answered_arg, State.answered_arg, harg]
  · apply BitVec.eq_of_toNat_eq
    rw [hmlen, hmlen']
    exact congrArg List.length htext
  · rw [hmlen, hmlen', hmbuf, hmbuf']
    exact htext

end

section
/-! PROOFS. DERIVE (42_seed.md R150 to R155): the length tests and the request of its first SEQ step, what its second
step stores, and the run of the two around HC's answer. -/

namespace Sys2Proof.Machine

/-! ### The first step (R151, R152) -/

/-- The key DERIVE asks HC for (R152). -/
def State.deriveRequest (s : State) : Request := .kdf s.password s.salt Config.kdfIter Config.seedBytes

theorem execDerive_paramRange {s : State} (h : 512 < s.mlen.toNat ∨ 256 < s.plen.toNat) :
    execDerive s = .next (s.complete .paramRange) := by
  rcases execDerive_cases s with ⟨-, he⟩ | ⟨hm, hp, -⟩
  · exact he
  · omega

theorem execDerive_inRange {s : State} (hm : s.mlen.toNat ≤ 512) (hp : s.plen.toNat ≤ 256) :
    execDerive s = .next (s.request s.deriveRequest .kwait) := by
  rcases execDerive_cases s with ⟨hout, -⟩ | ⟨-, -, he⟩
  · omega
  · exact he

/-- The key asked for has as many bytes as SEED (R153). -/
theorem State.deriveRequest_answer_length (s : State) : s.deriveRequest.answer.length = 64 := Vector.length_toList

/-! ### The second step (R150, R153) -/

/-- SEQ's turn in KWAIT, with the answer there, is DERIVE's second step (R186). -/
theorem step_deriveFinish {s : State} {rest : List Turn} {d : ByteString} (hp : s.phase = .kwait)
    (hr : s.hresp = some d) (ht : s.turns = .seq :: rest) :
    step s = .next (State.deriveFinish { s with turns := rest } d) := by
  rw [step_planned ht]
  exact State.seqStep_kwait hp hr

/-- An answer of SEED's size fills SEED. -/
theorem State.deriveFinish_seed {s : State} {d : ByteString} (hw : Memory.wf s.mem = true) (hd : d.length = 64) :
    (s.deriveFinish d).slice .seed 0 64 = d := by
  have hmem := (s.deriveFinish_spec d).1
  have hsame := State.slice_setBytes_same .seed d (i := 0) hw (by rw [hd]; decide)
  rw [padTo_of_length hd] at hmem
  rw [Nat.zero_add, hd] at hsame
  exact (State.slice_congr hmem _ _ _).trans hsame

/-- DERIVE's second step writes SEED's addresses only. -/
theorem State.read_deriveFinish_outside (s : State) (d : ByteString) {a : Nat}
    (ha : ¬ (Buf.seed.base ≤ a ∧ a < Buf.seed.base + 64)) :
    Memory.read (s.deriveFinish d).mem a = Memory.read s.mem a := by
  rw [(s.deriveFinish_spec d).1, State.read_setBytes_outside .seed _ (by rw [padTo_length]; omega)]

/-- DERIVE's second step leaves the other five buffers as they are. -/
theorem State.deriveFinish_buf (s : State) (d : ByteString) {b : Buf} (hb : b ≠ .seed) (k : Nat) :
    (s.deriveFinish d).buf b k = s.buf b k := by
  rw [State.buf_congr (s.deriveFinish_spec d).1, State.buf_setBytes_other _ _ _ (.inl hb)]

/-- The registers DERIVE's second step writes (R153). -/
theorem State.deriveFinish_only (s : State) (d : ByteString) : s.deriveFinish d = { s with
    mem := (s.deriveFinish d).mem, hresp := none, busy := false, done := true, err := .ok, phase := .idle } := by
  obtain ⟨-, h⟩ := s.deriveFinish_spec d
  -- With the memory opaque, unification compares the two records field by field and runs no write.
  generalize (s.deriveFinish d).mem = m at h ⊢
  exact h

theorem State.deriveFinish_lengths (s : State) (d : ByteString) :
    (s.deriveFinish d).mlen = s.mlen ∧ (s.deriveFinish d).plen = s.plen := by
  rw [State.deriveFinish_only]
  exact ⟨rfl, rfl⟩

/-! ### The three steps (R150, R155) -/

/-- The state in which SEQ takes DERIVE's second step, when HC has answered the request of the first. -/
def State.keyReady (s : State) (rest : List Turn) : State :=
  { s with phase := .kwait, hreq := none, turns := rest, hresp := some s.deriveRequest.answer }

/-- SEQ, HC, SEQ run a DERIVE with lengths in range to its end (R150, R201). -/
theorem State.run_derive {s : State} {rest : List Turn} (hp : s.phase = .decode)
    (hd : decode s.cmdl = .command .derive) (hm : s.mlen.toNat ≤ 512) (hl : s.plen.toNat ≤ 256)
    (ht : s.turns = .seq :: .hc :: .seq :: rest) :
    s.run 3 = .next ((s.keyReady rest).deriveFinish s.deriveRequest.answer) := by
  have hseq : step s = .next (State.request { s with turns := .hc :: .seq :: rest } s.deriveRequest .kwait) := by
    rw [step_planned ht, State.take, State.seqStep_decode (s := { s with turns := .hc :: .seq :: rest }) hp,
      State.decodeStep, hd]
    exact execDerive_inRange (s := { s with turns := .hc :: .seq :: rest }) hm hl
  have hhc : step (State.request { s with turns := .hc :: .seq :: rest } s.deriveRequest .kwait) =
      .next (s.keyReady (.seq :: rest)) := rfl
  have hfinish : step (s.keyReady (.seq :: rest)) = .next ((s.keyReady rest).deriveFinish s.deriveRequest.answer) :=
    step_deriveFinish rfl rfl rfl
  rw [State.run_succ hseq, State.run_succ hhc, State.run_succ hfinish, State.run_zero]

end Sys2Proof.Machine

open Sys2Proof Sys2Proof.Machine

/-- Settles O26: a length out of range makes the command a completion alone. -/
theorem deriveRejectsLengths : Obligations.DeriveRejectsLengths := by
  unfold Obligations.DeriveRejectsLengths
  exact fun _ h => execDerive_paramRange h

/-- Settles O27: lengths in range make the request and nothing else. -/
theorem deriveRequestsKey : Obligations.DeriveRequestsKey := by
  unfold Obligations.DeriveRequestsKey
  exact fun _ hm hp => execDerive_inRange hm hp

/-- Settles O28: the answer fills SEED exactly, so no padding is stored and no other address is reached. -/
theorem deriveStoresSeed : Obligations.DeriveStoresSeed := by
  unfold Obligations.DeriveStoresSeed
  intro s rest d hp hr hd ht hw
  exact ⟨_, step_deriveFinish hp hr ht, State.deriveFinish_seed (s := { s with turns := rest }) hw hd,
    fun _ => State.read_deriveFinish_outside { s with turns := rest } d,
    State.deriveFinish_only { s with turns := rest } d⟩

/-- Settles O29: the three steps end in DERIVE's second step on HC's answer to the captured request, and that answer
is the KDF of the operands captured. -/
theorem seedIsKdfOfInputs : Obligations.SeedIsKdfOfInputs := by
  unfold Obligations.SeedIsKdfOfInputs
  intro s rest hinv hp hd hm hl ht
  obtain ⟨hmlen, hplen⟩ := (s.keyReady rest).deriveFinish_lengths s.deriveRequest.answer
  have hbuf (b : Buf) (hb : b ≠ .seed) := State.deriveFinish_buf (s.keyReady rest) s.deriveRequest.answer hb
  exact ⟨_, State.run_derive hp hd hm hl ht, rfl, rfl, hmlen, hplen,
    fun k => ⟨hbuf .mbuf (by decide) k, hbuf .pass (by decide) k⟩,
    State.deriveFinish_seed (s := s.keyReady rest) hinv.memWf s.deriveRequest_answer_length⟩

end

section
/-! PROOFS. ZEROIZE (43_maintenance.md R170): with no entry in memory every buffer byte is 0, and the cleared WIDX
is 0 at every index. -/

namespace Sys2Proof.Machine

/-- A memory with no entry leaves every byte of every buffer 0 (R47). -/
theorem State.buf_of_mem_nil {s : State} (h : s.mem = []) (b : Buf) (i : Nat) : s.buf b i = 0 := by
  by_cases hi : i < b.size
  · rw [State.buf_of_lt s hi, h, Memory.read_nil]
  · exact State.buf_of_ge s (Nat.le_of_not_lt hi)

/-- A WIDX of 24 zeros is 0 at every index, in range or not. -/
theorem widx_replicate_getD (j : Nat) : (Vector.replicate 24 (0 : BitVec 11)).toList.getD j 0 = 0 := by
  rw [Vector.toList_replicate, List.getD_eq_getElem?_getD, List.getElem?_getD_replicate_default_eq]

end Sys2Proof.Machine

open Sys2Proof Sys2Proof.Machine

/-- Settles O30: ZEROIZE completes in one step with an empty memory and a WIDX of zeros. -/
theorem zeroizeClearsData : Obligations.ZeroizeClearsData := by
  unfold Obligations.ZeroizeClearsData
  exact fun _ => ⟨_, rfl, State.buf_of_mem_nil rfl, Memory.read_nil, widx_replicate_getD, rfl⟩

end

section
/-! PROOFS. Exceptions, completion and the hash core (60_exceptions.md R181, R182, R186, R187, R201, R203): what SEQ's
turn does in DECODE and at the end of a wait, how each command's DECODE step can end, and why a wait that HC never
answers goes on. -/

namespace Sys2Proof.Machine

/-! ### SEQ's turn (R186) -/

theorem State.decodeStep_command {s : State} {i : Instr} (h : decode s.cmdl = .command i) :
    s.decodeStep = exec i s := by
  rw [State.decodeStep, h]

theorem State.decodeStep_illegal {s : State} (h : illegalWord s.cmdl = true) :
    s.decodeStep = .next (s.complete .illegalCommand) := by
  obtain ⟨why, hd⟩ := (decode_illegal_iff s.cmdl).mpr h
  rw [State.decodeStep, hd, State.raise_eq]

/-- SEQ's planned turn in DECODE is the DECODE step. -/
theorem step_decode {s : State} {rest : List Turn} (hp : s.phase = .decode) (ht : s.turns = .seq :: rest) :
    step s = State.decodeStep { s with turns := rest } := by
  rw [step_planned ht]
  exact State.seqStep_decode hp

/-- With no turn planned SEQ goes on in DECODE (log entry 2). -/
theorem step_decode_unplanned {s : State} (hp : s.phase = .decode) (ht : s.turns = []) : step s = s.decodeStep := by
  rw [step_unplanned ht, State.unplanned, if_pos (by rw [State.seqEnabled, hp]), State.seqStep_decode hp]

/-- SEQ's turn on an answer ends the waiting command with OK (R182, R187). -/
theorem step_answered_completes {s : State} {rest : List Turn} (hp : s.phase = .hwait ∨ s.phase = .kwait)
    (hr : s.hresp.isSome = true) (ht : s.turns = .seq :: rest) : ∃ q, step s = .next (State.complete q .ok) := by
  obtain ⟨d, hd⟩ := Option.isSome_iff_exists.mp hr
  rcases hp with hp | hp
  · obtain ⟨q, hq⟩ := State.generateFinish_completes { s with turns := rest } d
    exact ⟨q, by rw [step_generateFinish hp hd ht, hq]⟩
  · exact ⟨_, step_deriveFinish hp hd ht⟩

/-! ### How a DECODE step can end (R182, R187) -/

/-- A command's DECODE step is a completion alone, a completion with OK that leaves HREQ, or a request and a wait. -/
theorem exec_outcome {i : Instr} {s t : State} (h : exec i s = .next t) :
    (∃ c, t = s.complete c) ∨ (∃ q, t = State.complete q .ok ∧ q.hreq = s.hreq) ∨
    ∃ r p, t = s.request r p ∧ (p = .hwait ∨ p = .kwait) := by
  rcases exec_cases h with hc | ⟨n, -, ht⟩ | ⟨c, -, -, -, ht⟩ | ⟨j, -, -, ht⟩ | ⟨b, -, -, ht⟩ | ⟨-, -, -, ht⟩ | ⟨-, ht⟩
  · exact .inl hc
  · exact .inr (.inl ⟨_, ht, rfl⟩)
  · obtain ⟨-, -, hreq, -⟩ := s.fill_consume_frame c
    exact .inr (.inl ⟨_, ht, hreq⟩)
  · exact .inr (.inl ⟨_, ht, rfl⟩)
  · exact .inr (.inr ⟨_, _, ht, .inl rfl⟩)
  · exact .inr (.inr ⟨_, _, ht, .inr rfl⟩)
  · exact .inr (.inl ⟨_, ht, rfl⟩)

/-- A command that ends with an error is a completion alone (R182). -/
theorem exec_failed {i : Instr} {s t : State} (h : exec i s = .next t) (hp : t.phase = .idle) (herr : t.err ≠ .ok) :
    ∃ c, t = s.complete c := by
  rcases exec_outcome h with hc | ⟨q, rfl, -⟩ | ⟨r, p, rfl, hwait⟩
  · exact hc
  · exact absurd rfl herr
  · rw [State.request_phase] at hp
    rcases hwait with rfl | rfl <;> cases hp

/-! ### HC (R201) -/

theorem State.hcStep_pending {s : State} {r : Request} (h : s.hreq = some r) :
    s.hcStep = { s with hreq := none, hresp := some r.answer } := by
  rw [State.hcStep, h]

/-- HC's turn on a pending request is its answer. -/
theorem step_hc_pending {s : State} {rest : List Turn} {r : Request} (h : s.hreq = some r)
    (ht : s.turns = .hc :: rest) :
    step s = .next { s with turns := rest, hreq := none, hresp := some r.answer } := by
  rw [step_planned ht, State.take, State.hcStep_pending (s := { s with turns := rest }) h]

/-! ### Waiting for ever (R203) -/

/-- A command waits without an answer, and nothing planned or unplanned will bring one or reset the block. -/
structure State.Hangs (s : State) : Prop where
  busy : s.busy = true
  waits : s.phase = .hwait ∨ s.phase = .kwait
  unanswered : s.hresp = none
  silent : s.hcResponds = false
  plan : ∀ turn ∈ s.turns, turn ≠ .hc ∧ turn.resets = false

theorem State.Hangs.seq_disabled {s : State} (h : s.Hangs) : s.seqEnabled = false := by
  unfold State.seqEnabled
  rcases h.waits with hp | hp <;> rw [hp, h.unanswered] <;> rfl

theorem State.Hangs.phase_ne_idle {s : State} (h : s.Hangs) : s.phase ≠ .idle := by
  rcases h.waits with hp | hp <;> rw [hp] <;> decide

/-- A step of a hanging state uses up a turn; a host access changes flags and the model's own fields beside it. -/
theorem State.Hangs.step_frame {s : State} (h : s.Hangs) : ∃ t, step s = .next t ∧
    t = { s with ie := t.ie, done := t.done, ovr := t.ovr, resp := t.resp, draws := t.draws
                 turns := s.turns.tail } := by
  cases ht : s.turns with
  | nil =>
    refine ⟨s, ?_, by rw [List.tail_nil, ← ht]⟩
    rw [step_unplanned ht, State.unplanned, h.seq_disabled, h.silent]
    rfl
  | cons turn rest =>
    obtain ⟨hhc, hreset⟩ := h.plan turn (by rw [ht]; exact List.mem_cons_self)
    cases turn with
    | seq =>
      rw [step_planned ht]
      exact ⟨_, State.seqStep_disabled (s := { s with turns := rest }) h.seq_disabled, rfl⟩
    | hc => exact absurd rfl hhc
    | reset => cases hreset
    | read | write => exact hostCannotDisturbRunningCommand s _ rest h.busy h.phase_ne_idle ht rfl hreset

/-- A hanging state hangs on, with the same command in the same wait. -/
theorem State.Hangs.step_keeps {s : State} (h : s.Hangs) :
    ∃ t, step s = .next t ∧ t.Hangs ∧ t.phase = s.phase ∧ t.cmdl = s.cmdl := by
  obtain ⟨t, hstep, hframe⟩ := h.step_frame
  refine ⟨t, hstep, ?_⟩
  rw [hframe]
  exact ⟨⟨h.busy, h.waits, h.unanswered, h.silent, fun turn hm => h.plan turn (List.mem_of_mem_tail hm)⟩, rfl, rfl⟩

theorem State.Hangs.run_keeps (k : Nat) : ∀ {s : State}, s.Hangs →
    ∃ t, s.run k = .next t ∧ t.Hangs ∧ t.phase = s.phase ∧ t.cmdl = s.cmdl := by
  induction k with
  | zero => exact fun {s} h => ⟨s, s.run_zero, h, rfl, rfl⟩
  | succ k ih =>
    intro s h
    obtain ⟨u, hstep, hu, hphase, hcmdl⟩ := h.step_keeps
    obtain ⟨t, hrun, ht, hphase', hcmdl'⟩ := ih hu
    exact ⟨t, (State.run_succ hstep).trans hrun, ht, hphase'.trans hphase, hcmdl'.trans hcmdl⟩

end Sys2Proof.Machine

open Sys2Proof Sys2Proof.Machine

/-- Settles O31: a DECODE step that ends with an error is a completion alone, and SEQ's turn on an answer completes
with OK. -/
theorem exceptionsLeaveNoPartialEffect : Obligations.ExceptionsLeaveNoPartialEffect := by
  unfold Obligations.ExceptionsLeaveNoPartialEffect
  refine ⟨fun i s t hexec hp herr => ?_, fun s t rest hp hr ht hstep => ?_⟩
  · obtain ⟨c, rfl⟩ := exec_failed hexec hp herr
    rfl
  · obtain ⟨q, hq⟩ := step_answered_completes hp hr ht
    obtain rfl := Host.Outcome.next.inj (hq.symm.trans hstep)
    exact ⟨rfl, rfl, rfl, rfl⟩

/-- Settles O32: every DECODE step answers with a completion that leaves HREQ, or with a request and a wait. -/
theorem commandsCompleteOrWait : Obligations.CommandsCompleteOrWait := by
  unfold Obligations.CommandsCompleteOrWait
  intro i s
  obtain ⟨t, hexec⟩ := exec_answers i s
  refine ⟨t, hexec, ?_⟩
  rcases exec_outcome hexec with ⟨c, rfl⟩ | ⟨q, rfl, hreq⟩ | ⟨r, p, rfl, hwait⟩
  · exact .inl ⟨rfl, rfl, rfl, rfl⟩
  · exact .inl ⟨rfl, rfl, rfl, hreq⟩
  · exact .inr ⟨rfl, rfl, rfl, rfl, hwait⟩

/-- Settles O38: a wait with no answer and no turn of HC or of a reset to come is kept by every step. -/
theorem waitsForeverIfHcIsSilent : Obligations.WaitsForeverIfHcIsSilent := by
  unfold Obligations.WaitsForeverIfHcIsSilent
  intro s hinv hwait hresp hsilent hplan k
  have hbusy : s.busy = true := hinv.busyIff.mpr (by rcases hwait with hp | hp <;> rw [hp] <;> decide)
  obtain ⟨t, hrun, ht, hphase, hcmdl⟩ := State.Hangs.run_keeps k ⟨hbusy, hwait, hresp, hsilent, hplan⟩
  exact ⟨t, hrun, ht.busy, hphase, hcmdl⟩

/-- Settles O5: SEQ's turn in DECODE, planned or not, is the DECODE step, which runs what the word decodes to. -/
theorem stepRunsDecodedCommand : Obligations.StepRunsDecodedCommand := by
  unfold Obligations.StepRunsDecodedCommand
  refine fun s i hp hd => ⟨fun rest ht => ?_, fun ht => ?_⟩
  · rw [step_decode hp ht]
    exact State.decodeStep_command hd
  · rw [step_decode_unplanned hp ht, State.decodeStep_command hd]

/-- Settles O6: the decoder answers `illegal` for the word, so the DECODE step is a completion alone. -/
theorem illegalWordRaisesIllegalCommand : Obligations.IllegalWordRaisesIllegalCommand := by
  unfold Obligations.IllegalWordRaisesIllegalCommand
  intro s rest hp hill ht
  rw [step_decode hp ht]
  exact State.decodeStep_illegal hill

/-- Settles O36: HC's turn is its step, which answers the pending request from the request alone. -/
theorem hashCoreAnswersRequest : Obligations.HashCoreAnswersRequest := by
  unfold Obligations.HashCoreAnswersRequest
  refine fun s rest ht => ⟨fun m hreq => step_hc_pending hreq ht, fun p q c n hreq => step_hc_pending hreq ht,
    fun hnone => ?_, fun m => Vector.length_toList, fun p q c n => Vector.length_toList⟩
  rw [step_planned ht, State.take, State.hcStep_quiet (s := { s with turns := rest }) hnone]

end

section
/-! PROOFS. Reset and hazards (70_reset_and_hazards.md R220, R222, R232, R237): the stream reads RBUF as it is at each
pull, the reset input's turn is a whole reset, and a running command ends once the agents whose turns it waits for
have had them. -/

namespace Sys2Proof.Machine

/-! ### A byte written under the stream (R232) -/

/-- A byte write below or above a slice leaves the slice as it was. -/
theorem State.slice_setBuf_outside (s : State) (b : Buf) (v : Byte) {i lo hi : Nat} (h : i < lo ∨ hi ≤ i) :
    (s.setBuf b i v).slice b lo hi = s.slice b lo hi :=
  State.slice_setBytes_other b b [v] (.inr (by simp only [List.length_singleton]; omega))

/-- A byte write from a slice's start on replaces that byte of the slice. -/
theorem State.slice_setBuf_inside {s : State} {b : Buf} (v : Byte) {i lo : Nat} (hi : Nat)
    (hw : Memory.wf s.mem = true) (hlo : lo ≤ i) (hsize : i < b.size) :
    (s.setBuf b i v).slice b lo hi = (s.slice b lo hi).set (i - lo) v := by
  apply List.ext_getElem
  · simp
  · intro k hk hk'
    rw [State.slice_getElem, List.getElem_set]
    split
    next hki => rw [show lo + k = i by omega, State.buf_setBuf_same v hw hsize]
    next hki => rw [State.slice_getElem, State.buf_setBuf_other v (.inr (by omega))]

/-- A byte write leaves ACC's bits and the two counters, so it reaches the stream through RBUF's bytes alone. -/
theorem State.stream_setBuf (s : State) (b : Buf) (i : Nat) (v : Byte) :
    (s.setBuf b i v).stream = s.accBits ++ bitStream ((s.setBuf b i v).slice .rbuf s.cur.val s.rlen.val) := by
  simp [State.stream, State.accBits]

/-! ### Every step uses up one turn (log entry 2) -/

theorem exec_turns {i : Instr} {s t : State} (h : exec i s = .next t) : t.turns = s.turns := by
  rcases exec_cases h with ⟨c, rfl⟩ | ⟨n, -, rfl⟩ | ⟨c, -, -, -, rfl⟩ | ⟨j, -, -, ht⟩ | ⟨b, -, -, rfl⟩ | ⟨-, -, -, rfl⟩ |
    ⟨-, rfl⟩
  · rfl
  · rfl
  · rw [State.fill_consume_only_reader]; rfl
  · rw [ht]; rfl
  · rfl
  · rfl
  · rfl

theorem State.seqStep_turns {s t : State} (h : s.seqStep = .next t) : t.turns = s.turns := by
  rcases State.seqStep_cases h with ⟨-, i, -, he⟩ | ⟨-, rfl⟩ | ⟨-, d, -, rfl⟩ | ⟨-, d, -, rfl⟩ | rfl
  · exact exec_turns he
  · rfl
  · rw [State.generateFinish_only]
  · rw [State.deriveFinish_only]
  · rfl

theorem State.busWrite_turns (s : State) (off : Int) (width : Nat) (v : Word) :
    (s.busWrite off width v).turns = s.turns := by
  rcases s.busWrite_cases off width v with ⟨-, he⟩ | ⟨ie, done, ovr, resp, -, he⟩ | ⟨-, he⟩ | ⟨-, mlen, plen, he⟩ |
    ⟨-, b, i, -, -, -, -, he⟩ <;> refine (congrArg State.turns he).trans ?_
  · rfl
  · rfl
  · rfl
  · rfl
  · exact State.setBytes_turns _ _ _ _

theorem step_turns {s t : State} (h : step s = .next t) : t.turns = s.turns.tail := by
  rcases step_cases h with ⟨-, hseq⟩ | rfl | rfl | ⟨off, width, rfl⟩ | ⟨off, width, v, -, rfl⟩ | ⟨-, rfl⟩
  · exact State.seqStep_turns hseq
  · rcases s.dequeue.hcStep_cases with he | ⟨r, -, he⟩ <;> rw [he] <;> rfl
  · rfl
  · rw [State.busRead_only]; rfl
  · exact State.busWrite_turns _ _ _ _
  · rfl

/-! ### The turns a running command still waits for (R186, R201, R237) -/

/-- The turns that end the running command: SEQ's to decode it, HC's to answer its request, SEQ's to take the answer;
none in IDLE. -/
def State.turnsToEnd (s : State) : List Turn :=
  match s.phase with
  | .idle => []
  | .decode => [.seq, .hc, .seq]
  | .hwait | .kwait => if s.hresp.isSome then [.seq] else [.hc, .seq]

section TurnsToEnd
variable {s t : State}

theorem State.turnsToEnd_eq_nil_iff : s.turnsToEnd = [] ↔ s.phase = .idle := by
  unfold State.turnsToEnd
  cases s.phase <;> cases s.hresp.isSome <;> decide

theorem State.turnsToEnd_decode (h : s.phase = .decode) : s.turnsToEnd = [.seq, .hc, .seq] := by
  rw [State.turnsToEnd, h]

theorem State.turnsToEnd_unanswered (hp : s.phase = .hwait ∨ s.phase = .kwait) (hr : s.hresp = none) :
    s.turnsToEnd = [.hc, .seq] := by
  rcases hp with hp | hp <;> rw [State.turnsToEnd, hp, hr] <;> rfl

theorem State.turnsToEnd_answered (hp : s.phase = .hwait ∨ s.phase = .kwait) (hr : s.hresp.isSome = true) :
    s.turnsToEnd = [.seq] := by
  rcases hp with hp | hp <;> rw [State.turnsToEnd, hp, hr] <;> rfl

theorem State.turnsToEnd_congr (hp : t.phase = s.phase) (hr : t.hresp = s.hresp) : t.turnsToEnd = s.turnsToEnd := by
  rw [State.turnsToEnd, State.turnsToEnd, hp, hr]

/-- Where a running command can stand: latched, waiting for HC, or waiting for SEQ with HC's answer there. -/
theorem State.Inv.running_cases (h : s.Inv) (hp : s.phase ≠ .idle) :
    (s.phase = .decode ∧ s.hreq = none ∧ s.hresp = none) ∨
    ((s.phase = .hwait ∨ s.phase = .kwait) ∧ (∃ r, s.hreq = some r) ∧ s.hresp = none) ∨
    ((s.phase = .hwait ∨ s.phase = .kwait) ∧ s.hreq = none ∧ s.hresp.isSome = true) := by
  have waits : ∀ {r : Request}, s.awaits r →
      ((∃ r, s.hreq = some r) ∧ s.hresp = none) ∨ (s.hreq = none ∧ s.hresp.isSome = true) := by
    rintro r (⟨hq, hr⟩ | ⟨hq, hr⟩)
    · exact .inl ⟨⟨r, hq⟩, hr⟩
    · exact .inr ⟨hq, by rw [hr]; rfl⟩
  cases hphase : s.phase with
  | idle => exact absurd hphase hp
  | decode => exact .inl ⟨rfl, h.quiet (.inr hphase)⟩
  | hwait =>
    obtain ⟨-, -, ha⟩ := h.hashing hphase
    exact .inr ((waits ha).imp (⟨.inl rfl, ·⟩) (⟨.inl rfl, ·⟩))
  | kwait =>
    obtain ⟨-, -, -, ha⟩ := h.seeding hphase
    exact .inr ((waits ha).imp (⟨.inr rfl, ·⟩) (⟨.inr rfl, ·⟩))

theorem State.Inv.turnsToEnd_sublist (h : s.Inv) : List.Sublist s.turnsToEnd [.seq, .hc, .seq] := by
  by_cases hp : s.phase = .idle
  · rw [State.turnsToEnd_eq_nil_iff.mpr hp]; decide
  · rcases h.running_cases hp with ⟨hp, -⟩ | ⟨hp, -, hr⟩ | ⟨hp, -, hr⟩
    · rw [State.turnsToEnd_decode hp]
    · rw [State.turnsToEnd_unanswered hp hr]; decide
    · rw [State.turnsToEnd_answered hp hr]; decide

/-- A DECODE step ends the command, or leaves it waiting with HRESP as it was (R187). -/
theorem State.decodeStep_outcome (h : s.decodeStep = .next t) :
    t.phase = .idle ∨ ((t.phase = .hwait ∨ t.phase = .kwait) ∧ t.hresp = s.hresp) := by
  rw [State.decodeStep] at h
  split at h
  · rcases exec_outcome h with ⟨c, rfl⟩ | ⟨q, rfl, -⟩ | ⟨r, p, rfl, hp⟩
    · exact .inl rfl
    · exact .inl rfl
    · exact .inr ⟨hp, rfl⟩
  · obtain rfl := Host.Outcome.next.inj h
    exact .inl rfl

/-- How a step bears on the turns its running command waits for: it ends the command, it was the turn waited for
first, or it was another's and nothing is gained or lost. -/
def State.Advances (s t : State) (turn : Turn) : Prop :=
  t.phase = .idle ∨ s.turnsToEnd = turn :: t.turnsToEnd ∨
    (t.turnsToEnd = s.turnsToEnd ∧ s.turnsToEnd.head? ≠ some turn)

/-- A step that leaves PHASE and HRESP is another agent's, if its turn is not the one waited for first. -/
theorem State.Advances.of_unmoved {turn : Turn} (hp : t.phase = s.phase) (hr : t.hresp = s.hresp)
    (hhead : s.turnsToEnd.head? ≠ some turn) : s.Advances t turn :=
  .inr (.inr ⟨State.turnsToEnd_congr hp hr, hhead⟩)

/-- No command waits for a turn of the host. -/
theorem State.turnsToEnd_head_ne_host {turn : Turn} (h : turn.isHost = true) : s.turnsToEnd.head? ≠ some turn := by
  unfold State.turnsToEnd
  intro hhead
  split at hhead
  case h_1 => cases hhead
  case h_2 => cases hhead; cases h
  all_goals split at hhead <;> cases hhead <;> cases h

theorem State.seqStep_unanswered (hp : s.phase = .hwait ∨ s.phase = .kwait) (hr : s.hresp = none) :
    s.seqStep = .next s :=
  State.seqStep_disabled (by rcases hp with hp | hp <;> rw [State.seqEnabled, hp, hr] <;> rfl)

theorem State.seqStep_answered (hp : s.phase = .hwait ∨ s.phase = .kwait) (hr : s.hresp.isSome = true)
    (h : s.seqStep = .next t) : t.phase = .idle := by
  obtain ⟨d, hd⟩ := Option.isSome_iff_exists.mp hr
  rcases hp with hp | hp
  · rw [State.seqStep_hwait hp hd] at h
    obtain rfl := Host.Outcome.next.inj h
    rfl
  · rw [State.seqStep_kwait hp hd] at h
    obtain rfl := Host.Outcome.next.inj h
    rfl

section Running
variable (h : s.Inv) (hp : s.phase ≠ .idle)
include h hp

theorem State.Inv.seqStep_advances (hs : s.seqStep = .next t) : s.Advances t .seq := by
  rcases h.running_cases hp with ⟨hp, -, hr⟩ | ⟨hp, -, hr⟩ | ⟨hp, -, hr⟩
  · rw [State.seqStep_decode hp] at hs
    rcases State.decodeStep_outcome hs with hidle | ⟨hwait, hresp⟩
    · exact .inl hidle
    · exact .inr (.inl (by rw [State.turnsToEnd_decode hp, State.turnsToEnd_unanswered hwait (hresp.trans hr)]))
  · obtain rfl := Host.Outcome.next.inj ((State.seqStep_unanswered hp hr).symm.trans hs)
    exact .of_unmoved rfl rfl (by rw [State.turnsToEnd_unanswered hp hr]; decide)
  · exact .inl (State.seqStep_answered hp hr hs)

theorem State.Inv.hcStep_advances : s.Advances s.hcStep .hc := by
  rcases h.running_cases hp with ⟨hp, hq, -⟩ | ⟨hp, ⟨r, hq⟩, hr⟩ | ⟨hp, hq, hr⟩
  · rw [State.hcStep_quiet hq]
    exact .of_unmoved rfl rfl (by rw [State.turnsToEnd_decode hp]; decide)
  · rw [State.hcStep_pending hq]
    have hanswered : State.turnsToEnd { s with hreq := none, hresp := some r.answer } = [.seq] :=
      State.turnsToEnd_answered hp rfl
    exact .inr (.inl (by rw [State.turnsToEnd_unanswered hp hr, hanswered]))
  · rw [State.hcStep_quiet hq]
    exact .of_unmoved rfl rfl (by rw [State.turnsToEnd_answered hp hr]; decide)

/-- A host write resets the block or touches flags alone: with BUSY = 1 the other writes are lost (R65, R75). -/
theorem State.Inv.busWrite_advances (off : Int) (width : Nat) (v : Word) :
    s.Advances (s.busWrite off width v) (.write off width v) := by
  have hb : s.busy = true := h.busyIff.mpr hp
  rcases s.busWrite_cases off width v with ⟨-, he⟩ | ⟨ie, done, ovr, resp, -, he⟩ | ⟨hidle, -⟩ | ⟨hnot, -⟩ |
    ⟨hnot, -⟩
  · rw [he]; exact .inl rfl
  · rw [he]; exact .of_unmoved rfl rfl (State.turnsToEnd_head_ne_host rfl)
  · exact absurd hidle hp
  · exact Bool.noConfusion (hnot.symm.trans hb)
  · exact Bool.noConfusion (hnot.symm.trans hb)

theorem State.Inv.take_advances {turn : Turn} (ht : s.take turn = .next t) : s.Advances t turn := by
  cases turn with
  | seq => exact h.seqStep_advances hp ht
  | hc =>
    obtain rfl := Host.Outcome.next.inj ht
    exact h.hcStep_advances hp
  | read off width =>
    obtain rfl := Host.Outcome.next.inj ht
    rw [State.busRead_only]
    exact .of_unmoved rfl rfl (State.turnsToEnd_head_ne_host rfl)
  | write off width v =>
    obtain rfl := Host.Outcome.next.inj ht
    exact h.busWrite_advances hp off width v
  | reset =>
    obtain rfl := Host.Outcome.next.inj ht
    exact .inl rfl

end Running

/-- A step that advances the command keeps the plan long enough to end it. -/
theorem State.Advances.turnsToEnd_sublist {turn : Turn} {rest : List Turn} (h : s.Advances t turn)
    (hplan : List.Sublist s.turnsToEnd (turn :: rest)) : List.Sublist t.turnsToEnd rest := by
  rcases h with hidle | hfirst | ⟨hsame, hhead⟩
  · rw [State.turnsToEnd_eq_nil_iff.mpr hidle]
    exact List.nil_sublist rest
  · rw [hfirst] at hplan
    exact List.cons_sublist_cons.mp hplan
  · rw [hsame]
    rcases List.sublist_cons_iff.mp hplan with hrest | ⟨l, hl, -⟩
    · exact hrest
    · exact absurd (by rw [hl]; rfl) hhead

end TurnsToEnd

/-- A plan that holds the turns a command waits for ends it (R237). -/
theorem State.Inv.run_ends {turns : List Turn} : ∀ {s : State}, s.Inv → s.turns = turns →
    List.Sublist s.turnsToEnd turns → ∃ k t, k ≤ turns.length ∧ s.run k = .next t ∧ t.busy = false := by
  induction turns with
  | nil =>
    intro s h _ hplan
    have hp : s.phase = .idle := State.turnsToEnd_eq_nil_iff.mp (List.sublist_nil.mp hplan)
    exact ⟨0, s, le_rfl, s.run_zero, Bool.eq_false_iff.mpr fun hb => h.busyIff.mp hb hp⟩
  | cons turn rest ih =>
    intro s h hturns hplan
    cases hb : s.busy with
    | false => exact ⟨0, s, Nat.zero_le _, s.run_zero, hb⟩
    | true =>
      have hp : s.phase ≠ .idle := h.busyIff.mp hb
      obtain ⟨t, hstep⟩ := everyStepAnswersNext s
      have hadvance : State.Advances { s with turns := rest } t turn := by
        have hd := h.dequeue
        rw [State.dequeue_planned hturns] at hd
        exact hd.take_advances hp ((step_planned hturns).symm.trans hstep)
      have hrest : t.turns = rest := by rw [step_turns hstep, hturns]; rfl
      obtain ⟨k, u, hk, hrun, hu⟩ := ih (everyStepKeepsInv s t h hstep) hrest (hadvance.turnsToEnd_sublist hplan)
      exact ⟨k + 1, u, Nat.succ_le_succ hk, (State.run_succ hstep).trans hrun, hu⟩

end Sys2Proof.Machine

open Sys2Proof Sys2Proof.Machine

/-- Settles O37: SEQ, HC, SEQ hold every turn a command can wait for, and each step of the plan is the turn waited
for first, ends the command, or leaves it waiting for the same turns. -/
theorem commandEndsIfSeqAndHcGetTurns : Obligations.CommandEndsIfSeqAndHcGetTurns := by
  unfold Obligations.CommandEndsIfSeqAndHcGetTurns
  exact fun s h hplan => h.run_ends rfl (h.turnsToEnd_sublist.trans hplan)

/-- Settles O15: a byte write reaches the stream through RBUF[CUR..RLEN) alone. -/
theorem streamReadsLiveRbuf : Obligations.StreamReadsLiveRbuf := by
  unfold Obligations.StreamReadsLiveRbuf
  intro s i v hw
  refine ⟨fun hi => ?_, fun hcur hrlen => ?_⟩ <;> rw [State.stream_setBuf]
  · rw [State.slice_setBuf_outside s .rbuf v (.inl hi)]
    rfl
  · have hsize : i < Buf.rbuf.size := lt_of_lt_of_le hrlen (Nat.le_of_lt_succ s.rlen.isLt)
    rw [State.slice_setBuf_inside v _ hw hcur hsize]

/-- Settles O54: the reset input's turn is `resetAll`, which leaves the block in IDLE, where a CMD write starts a
command. -/
theorem hardwareResetStep : Obligations.HardwareResetStep := by
  unfold Obligations.HardwareResetStep
  intro s rest hturns
  refine ⟨_, step_planned hturns, rfl, fun v => ?_⟩
  rw [State.busWrite_cmd, State.writeCmd_idle v rfl]
  exact ⟨rfl, rfl⟩

end
